-- ==== Sys2Proof/Word.lean ====
section
/-! DEFINITION. The word types of the block: a byte of a stream (00_scope.md R8) and a 16-bit field. -/

namespace Sys2Proof

/-- A byte: an 8-bit unsigned value (00_scope.md R8). -/
abbrev Byte := BitVec 8

/-- A 16-bit field: a command code, the frame constant, STATUS (00_scope.md R8). -/
abbrev Half := BitVec 16

end Sys2Proof
end

