-- ==== Sys2Proof/Config.lean ====
section
/-! DEFINITION. What is fixed for this hardware (00_scope.md section 4), the four OPEN command codes (R6) and the
free value of the register `arg` (10_state.md section 2). -/

namespace Sys2Proof.Config

/-- `PREFIX`, sent high byte first (00_scope.md R7; 92_eei_decisions.md D9). -/
def framePrefix : Half := 0xAADD

/-- `CMD_BEEP` (00_scope.md section 4; 30_encoding.md R77). -/
def cmdBeep : Half := 0x0103

/-- `CMD_READ` (00_scope.md section 4; 30_encoding.md R77). -/
def cmdRead : Half := 0x010C

/-- Values for the four command codes that no source gives (00_scope.md R6; 92_eei_decisions.md D10). -/
structure OpenCodes where
  info : Half
  led : Half
  write2 : Half
  write3 : Half
deriving DecidableEq, Repr, Inhabited

/-- All six command codes, in the order of 00_scope.md section 4, when the open ones are `c`. -/
def OpenCodes.all (c : OpenCodes) : List Half := [c.info, cmdBeep, c.led, cmdRead, c.write2, c.write3]

/-- The premise of 00_scope.md R6: the six command codes are pairwise different. -/
abbrev OpenCodes.Distinct (c : OpenCodes) : Prop := c.all.Nodup

/-- Any four values at all: nothing in Lean can say what they are (00_scope.md R6 'OPEN: model parameter'). -/
opaque anyCodes : OpenCodes

/-- A quadruple that meets R6, used only to keep R6's premise when `anyCodes` does not meet it. It is the test
configuration T of 95_test_vectors.md; no statement rests on it. -/
def someDistinctCodes : OpenCodes := ⟨0x0000, 0x0002, 0x0003, 0x0004⟩

/-- The open codes under R6's premise: `anyCodes` whenever it meets the premise, so that every quadruple R6 admits is
a possible value and no other is. DESIGN CHOICE (log entry 8), safe. -/
def openCodes : OpenCodes := if anyCodes.Distinct then anyCodes else someDistinctCodes

/-- `CMD_INFO`, an OPEN parameter (00_scope.md R6). -/
def cmdInfo : Half := openCodes.info

/-- `CMD_LED`, an OPEN parameter (00_scope.md R6). -/
def cmdLed : Half := openCodes.led

/-- `CMD_WRITE2`, an OPEN parameter (00_scope.md R6). -/
def cmdWrite2 : Half := openCodes.write2

/-- `CMD_WRITE3`, an OPEN parameter (00_scope.md R6). -/
def cmdWrite3 : Half := openCodes.write3

/-- `ST_OK` (00_scope.md section 4; 30_encoding.md R78). -/
def stOk : Byte := 0x00

/-- `ST_NOTAG` (00_scope.md section 4; 30_encoding.md R78). -/
def stNoTag : Byte := 0x01

/-- `LED_OFF` (00_scope.md section 4; 30_encoding.md R79). -/
def ledOff : Byte := 0x00

/-- `LED_RED`. -/
def ledRed : Byte := 0x01

/-- `LED_GREEN`, the largest mode that the typed operation takes (43_command_status.md R203). -/
def ledGreen : Byte := 0x02

/-- `MIN_LEN`: the least declared length the parser accepts (42_frame_parser.md R144). -/
def minLen : Nat := 4

/-- `MAX_LEN`: the largest value of the 16-bit length field. -/
def maxLen : Nat := 65535

/-- `MAX_REQ_DATA = MAX_LEN - 3` (41_frame_encoder.md R123). -/
def maxReqData : Nat := maxLen - 3

/-- `MAX_RSP_ANSWER = MAX_LEN - 4` (41_frame_encoder.md R127). -/
def maxRspAnswer : Nat := maxLen - 4

/-- `BEEP_UNITS_PER_SECOND` (43_command_status.md R196). -/
def beepUnitsPerSecond : Nat := 255

/-- `BEEP_MAX_UNITS` (43_command_status.md R198). -/
def beepMaxUnits : Nat := 255

/-- What `arg` holds after an operation for which 10_state.md section 2 calls it undefined: a FREE VALUE, one for each
accepted request. DESIGN CHOICE (log entry 3), safe. -/
opaque freeArg : Nat → Byte

end Sys2Proof.Config
end

