-- ==== Sys2Proof/Syntax.lean ====
section
/-! DEFINITION. The operations of the block, one constructor of `Instr` for each row of spec/opcode_table.json, and the
two forms in which the host presents one (30_encoding.md R80, R81, R84). The constructors are the abstract form of the
assembler lines of 30_encoding.md R86; `Pseudo` is R87's list. -/

namespace Sys2Proof

/-- What follows the last byte of `DEC`'s input (30_encoding.md R81): the stream is exhausted, or it failed. -/
inductive Term where
  | eos
  | err
deriving DecidableEq, Repr

/-- The instruction set: the ten host operations and the two reserved ranges (30_encoding.md R80), then the six wire
commands (30_encoding.md R77), each as the raw exchange of that command (R84, 43_command_status.md R182, R209; log
entry 7). -/
inductive Instr where
  | csum (data : List Byte)
  | encReq (cmd : Half) (data : List Byte)
  | encRsp (cmd : Half) (st : Byte) (answer : List Byte)
  | dec (data : List Byte) (term : Term)
  | xchg (cmd : Half) (data : List Byte)
  | info
  | beep (units : Byte)
  | beepNs (ns : BitVec 64)
  | led (mode : Byte)
  | readTag
  | reservedZero
  | reservedHigh (op : BitVec 4)
  | cmdBeep (data : List Byte)
  | cmdRead (data : List Byte)
  | cmdInfo (data : List Byte)
  | cmdLed (data : List Byte)
  | cmdWrite2 (data : List Byte)
  | cmdWrite3 (data : List Byte)
deriving DecidableEq, Repr

/-- The host request record (30_encoding.md R81). An operation reads only the fields R80 lists for it. -/
structure Req where
  op : BitVec 4
  cmd : Half := 0
  st : Byte := 0
  arg : Byte := 0
  ns : BitVec 64 := 0
  data : List Byte := []
  term : Term := .eos
deriving DecidableEq, Repr

/-- What the host presents: a request record (format hostop of spec/opcode_table.json), or a raw command under its
16-bit wire code (format cmd16), which reaches the block as an `XCHG` record (30_encoding.md R84, R87; log entry 7). -/
inductive Request where
  | record (q : Req)
  | wire (cmd : Half) (data : List Byte)
deriving DecidableEq, Repr

/-- The pseudo-operations of 30_encoding.md R87. -/
inductive Pseudo where
  | write2 (data : List Byte)
  | write3 (data : List Byte)
  | ledOff
  | ledRed
  | ledGreen
  | beepMs (n : Nat)
  | beepS (n : Nat)
  | beepForever
deriving DecidableEq, Repr

end Sys2Proof
end

