-- ==== Sys2Proof/WellFormed.lean ====
section
/-! DEFINITION. Which terms of `Instr` stand for an encoding. The one term that does not is a reserved high operation
whose code lies outside 0xB..0xF (30_encoding.md R80). The length limits of data are no matter of form: a request that
breaks one is presented and faults (60_exceptions.md R236). -/

namespace Sys2Proof

/-- The instruction has an encoding (30_encoding.md R80, R83). -/
def WellFormed : Instr → Bool
  | .csum _ => true
  | .encReq _ _ => true
  | .encRsp _ _ _ => true
  | .dec _ _ => true
  | .xchg _ _ => true
  | .info => true
  | .beep _ => true
  | .beepNs _ => true
  | .led _ => true
  | .readTag => true
  | .reservedZero => true
  | .reservedHigh op => decide (0xB ≤ op.toNat)
  | .cmdBeep _ => true
  | .cmdRead _ => true
  | .cmdInfo _ => true
  | .cmdLed _ => true
  | .cmdWrite2 _ => true
  | .cmdWrite3 _ => true

end Sys2Proof
end

