-- ==== Sys2Proof/Decode.lean ====
section
/-! DEFINITION. Reading a request (30_encoding.md R80, R81, R77) and writing one; the words of spec/opcode_table.json;
the pseudo-operations (R87). Every request has a reading: the operation code has 4 bits and R80 gives all sixteen
values a row, and a raw command may carry any code (R84). -/

namespace Sys2Proof

/-- Read a request record by its operation code (30_encoding.md R80). Fields the row does not list are ignored (R81). -/
def decodeReq (q : Req) : Instr :=
  match q.op.toNat with
  | 0x0 => .reservedZero
  | 0x1 => .csum q.data
  | 0x2 => .encReq q.cmd q.data
  | 0x3 => .encRsp q.cmd q.st q.data
  | 0x4 => .dec q.data q.term
  | 0x5 => .xchg q.cmd q.data
  | 0x6 => .info
  | 0x7 => .beep q.arg
  | 0x8 => .beepNs q.ns
  | 0x9 => .led q.arg
  | 0xA => .readTag
  | _ => .reservedHigh q.op

/-- Read a raw command by its 16-bit code (30_encoding.md R77); a code outside the set has no name and is the raw
exchange of that code (R84). -/
def decodeWire (cmd : Half) (data : List Byte) : Instr :=
  if cmd = Config.cmdBeep then .cmdBeep data
  else if cmd = Config.cmdRead then .cmdRead data
  else if cmd = Config.cmdInfo then .cmdInfo data
  else if cmd = Config.cmdLed then .cmdLed data
  else if cmd = Config.cmdWrite2 then .cmdWrite2 data
  else if cmd = Config.cmdWrite3 then .cmdWrite3 data
  else .xchg cmd data

/-- The instruction a request stands for. Total: R80 and R84 leave no request without one. -/
def decode : Request → Instr
  | .record q => decodeReq q
  | .wire cmd data => decodeWire cmd data

/-- The request that presents an instruction, from the tables of 30_encoding.md R80 and R77; fields a row does not
list are 0. -/
def encode : Instr → Request
  | .csum data => .record { op := 0x1, data := data }
  | .encReq cmd data => .record { op := 0x2, cmd := cmd, data := data }
  | .encRsp cmd st answer => .record { op := 0x3, cmd := cmd, st := st, data := answer }
  | .dec data term => .record { op := 0x4, data := data, term := term }
  | .xchg cmd data => .record { op := 0x5, cmd := cmd, data := data }
  | .info => .record { op := 0x6 }
  | .beep units => .record { op := 0x7, arg := units }
  | .beepNs ns => .record { op := 0x8, ns := ns }
  | .led mode => .record { op := 0x9, arg := mode }
  | .readTag => .record { op := 0xA }
  | .reservedZero => .record { op := 0x0 }
  | .reservedHigh op => .record { op := op }
  | .cmdBeep data => .wire Config.cmdBeep data
  | .cmdRead data => .wire Config.cmdRead data
  | .cmdInfo data => .wire Config.cmdInfo data
  | .cmdLed data => .wire Config.cmdLed data
  | .cmdWrite2 data => .wire Config.cmdWrite2 data
  | .cmdWrite3 data => .wire Config.cmdWrite3 data

/-- The record the block sees: a raw command is an `XCHG` record that carries it (43_command_status.md R182, R209;
30_encoding.md R87, R88). -/
def Request.toReq : Request → Req
  | .record q => q
  | .wire cmd data => { op := 0x5, cmd := cmd, data := data }

/-- The request whose bits are `w`, numbered as spec/opcode_table.json numbers them: up to one byte is a request record
with `op` in bits 3..0, two bytes are a raw command's code; everything above is 0, so the operands are 0 and the byte
sequence is empty (log entry 12). -/
def requestOfTableWord (nbits w : Nat) : Option Request :=
  if nbits ≤ 8 then some (.record { op := BitVec.ofNat 4 w })
  else if nbits ≤ 16 then some (.wire (BitVec.ofNat 16 w) [])
  else none

/-- The instruction the decoder reads from an instruction whose bits are `w` (log entry 12). -/
def decodeTableWord (nbits w : Nat) : Option Instr := (requestOfTableWord nbits w).map decode

/-- `n * factor` nanoseconds as `BEEP_NS`, when the count fits the 64 bits of `ns` (30_encoding.md R81); otherwise it
cannot be presented (log entry 14). -/
def beepOfDuration (n factor : Nat) : Option Instr :=
  if n * factor < 2 ^ 64 then some (.beepNs (BitVec.ofNat 64 (n * factor))) else none

/-- The expansion of a pseudo-operation (30_encoding.md R87). -/
def Pseudo.expand : Pseudo → Option Instr
  | .write2 data => some (.xchg Config.cmdWrite2 data)
  | .write3 data => some (.xchg Config.cmdWrite3 data)
  | .ledOff => some (.led Config.ledOff)
  | .ledRed => some (.led Config.ledRed)
  | .ledGreen => some (.led Config.ledGreen)
  | .beepMs n => beepOfDuration n 1000000
  | .beepS n => beepOfDuration n 1000000000
  | .beepForever => some (.beep 0)

end Sys2Proof
end

