-- ==== Sys2Proof/Machine/State.lean ====
section
/-! DEFINITION. The state of the block and of the three agents around it (00_scope.md R4), as plain data; the reasons a
step can stop; the state after reset (70_reset_and_hazards.md R260). -/

namespace Sys2Proof.Machine

/-- The sequencer phase (10_state.md R22). -/
inductive Phase where
  | idle
  | tx
  | rxHdr
  | rxBody
deriving DecidableEq, Repr

/-- The causes of the sticky fault (60_exceptions.md R239). -/
inductive FaultCode where
  | none
  | illegalOp
  | hostOverlap
  | dataTooLong
  | badLedMode
  | noResult
deriving DecidableEq, Repr

/-- The header buffer `hbuf`: 4 bytes, `frame[0]` to `frame[3]` (10_state.md section 2). -/
structure Header where
  b0 : Byte
  b1 : Byte
  b2 : Byte
  b3 : Byte
deriving DecidableEq, Repr

/-- The fields of an error record, every one a number (60_exceptions.md R231). -/
structure ErrorRec where
  cls : BitVec 3
  ph : BitVec 3
  det : BitVec 4
  a : Byte
  b : Byte
  n : Nat
  term : BitVec 2
  consumed : Nat
deriving DecidableEq, Repr

/-- The result record (10_state.md R30). `empty` is the table's kind-0 row '(none)', which no rule stores. -/
inductive Result where
  | empty
  | decoded (cmd : Half) (status : Byte) (answer : List Byte) (consumed : Nat)
  | frame (bytes : List Byte)
  | checksum (value : Byte)
  | exchanged (status : Byte) (answer : List Byte)
  | infoText (bytes : List Byte)
  | done
  | tag (bytes : List Byte)
  | noTag
  | error (e : ErrorRec)
deriving DecidableEq, Repr

/-- The variant names of the result record, which a script's `if` line tests (10_state.md R30; 30_encoding.md R88). -/
inductive Kind where
  | empty
  | decoded
  | frame
  | checksum
  | exchanged
  | infoText
  | done
  | tag
  | noTag
  | error
deriving DecidableEq, Repr

/-- The failures of an operation (42_frame_parser.md R140; 43_command_status.md R184, R187). -/
inductive Err where
  | writeRejected (n : Nat)
  | readEos (n : Nat)
  | readErr (n : Nat)
  | shortHeader (n : Nat) (term : Term)
  | badPrefix (a b : Byte)
  | badLength (n : Nat)
  | integrity (a b : Byte)
  | status (s : Byte)
deriving DecidableEq, Repr

/-- What the parser, or the transmit side's rejection, hands to `Complete` (42_frame_parser.md R140, 43_command_status.md
R185). -/
inductive ParseOut where
  | ok (cmd : Half) (status : Byte) (answer : List Byte)
  | error (e : Err)
deriving DecidableEq, Repr

/-- One item of the receive stream (20_memory.md R52). -/
inductive RxItem where
  | byte (b : Byte)
  | eos
  | err
deriving DecidableEq, Repr

/-- The transmit side's answer to an offered byte (20_memory.md R51). -/
inductive TxAnswer where
  | ack
  | err
deriving DecidableEq, Repr

/-- One line of the host. `present`, `readStatus`, `readResult` and `reset` are its actions on the block's ports
(00_scope.md R4; 10_state.md R33, R34; 70_reset_and_hazards.md R260); `idle` lets the block take one step of its own;
`await`, `label`, `goto`, `ifKind` and `halt` are the control of 30_encoding.md R88 (log entries 4 and 11). -/
inductive HostLine where
  | present (r : Request)
  | readStatus
  | readResult
  | reset
  | idle
  | await
  | label (name : Nat)
  | goto (name : Nat)
  | ifKind (kind : Kind) (name : Nat)
  | halt
deriving DecidableEq, Repr

/-- What the host has read from a port (10_state.md R33, R34). -/
inductive HostRead where
  | status (value : Half)
  | result (r : Result)
deriving DecidableEq, Repr

/-- The machine. The first sixteen fields are the block's registers, all of them and no other (10_state.md R21);
`rx`, `txAns` and `sent` are the transport's two streams (20_memory.md R50 to R52), `todo`, `script` and `reads` the
host (30_encoding.md R88), and `draws` counts the free values taken (log entry 3). -/
structure State where
  phase : Phase
  op : BitVec 4
  cmd : Half
  arg : Byte
  txbuf : List Byte
  txidx : Nat
  hbuf : Header
  hcnt : Nat
  rlen : Nat
  rbuf : List Byte
  bcnt : Nat
  xacc : Byte
  resValid : Bool
  res : Result
  fault : Bool
  faultCode : FaultCode
  rx : List RxItem
  txAns : List TxAnswer
  sent : List Byte
  todo : List HostLine
  script : List HostLine
  reads : List HostRead
  draws : Nat
deriving DecidableEq, Repr

/-- The states in which the rules give no step, and a script that jumps nowhere. No run from reset meets one of the
first four: Sys2Proof/Safety.lean's invariant rules them out. -/
inductive Fault where
  /-- Raised by the TX step when `txidx` is no index of `txbuf`, where 43_command_status.md R183 gives no step. Safe. -/
  | txIndexOutOfRange
  /-- Raised by the RX_HDR step when `hcnt` is 4 or more, where 42_frame_parser.md R150 gives no step. Safe. -/
  | headerCountOutOfRange
  /-- Raised by the RX_BODY step when `bcnt` is `rlen` or more, where 42_frame_parser.md R152 gives no step. Safe. -/
  | bodyCountOutOfRange
  /-- Raised by `Complete` when `op` is no exchange operation, where 43_command_status.md R187 has no row. Safe. -/
  | notAnExchange
  /-- Raised by a host line that jumps to a label its script does not hold (30_encoding.md R88 gives it no meaning).
  Safe. -/
  | noSuchLabel
deriving DecidableEq, Repr

/-- The reasons a step has no meaning. -/
inductive Refusal where
  /-- Raised by `exec` alone, for an instruction that has no meaning yet; every instruction has one. Safe. -/
  | notModelled (mnemonic : String)
deriving DecidableEq, Repr

/-- The machine right after reset (70_reset_and_hazards.md R260). The registers to which R260 gives no value hold the
values of log entry 1; the agents have nothing left to do and nothing done (log entry 4). -/
def State.reset : State where
  phase := .idle
  op := 0
  cmd := 0
  arg := 0
  txbuf := []
  txidx := 0
  hbuf := ⟨0, 0, 0, 0⟩
  hcnt := 0
  rlen := 0
  rbuf := []
  bcnt := 0
  xacc := 0x00
  resValid := false
  res := .empty
  fault := false
  faultCode := .none
  rx := []
  txAns := []
  sent := []
  todo := []
  script := []
  reads := []
  draws := 0

end Sys2Proof.Machine
end

