-- ==== Sys2Proof/Machine/Operands.lean ====
section
/-! DEFINITION. Bytes, fields and sequences (00_scope.md R8, R9), and the one computed operand, the beep unit count
(30_encoding.md R82; 43_command_status.md R199). -/

namespace Sys2Proof.Machine

/-- The high byte `v[15:8]` (00_scope.md R8). -/
def hi (v : Half) : Byte := v.extractLsb' 8 8

/-- The low byte `v[7:0]` (00_scope.md R8). -/
def lo (v : Half) : Byte := v.extractLsb' 0 8

/-- Two bytes joined high first, as a number (00_scope.md R8, 20_memory.md R54). -/
def be16 (a b : Byte) : Nat := a.toNat * 256 + b.toNat

/-- Two bytes joined high first, as a 16-bit field (30_encoding.md R82). -/
def joinHalf (a b : Byte) : Half := BitVec.ofNat 16 (be16 a b)

/-- `XOR(s)`, the exclusive-or of all bytes, with `XOR([]) = 0x00` (00_scope.md R9; 40_checksum.md R101). -/
def xorAll : List Byte → Byte
  | [] => 0x00
  | b :: rest => b ^^^ xorAll rest

/-- `s[i]` (00_scope.md R9); used only at indices of the sequence. -/
def byteAt (s : List Byte) (i : Nat) : Byte := s.getD i 0

/-- `s[i..j)` (00_scope.md R9). -/
def slice (s : List Byte) (i j : Nat) : List Byte := (s.drop i).take (j - i)

/-- `hbuf[i] <- b` (42_frame_parser.md R150); used only with `i < 4`. -/
def setHeaderByte (h : Header) (i : Nat) (b : Byte) : Header :=
  match i with
  | 0 => { h with b0 := b }
  | 1 => { h with b1 := b }
  | 2 => { h with b2 := b }
  | 3 => { h with b3 := b }
  | _ => h

/-- The rounded count `floor((510 * ns + 10^9) / (2 * 10^9))`, halves up, on naturals (43_command_status.md R197). -/
def roundedUnits (ns : Nat) : Nat :=
  (2 * Config.beepUnitsPerSecond * ns + 1000000000) / 2000000000

/-- `BeepUnits(ns)`: rounded, bumped to 1 when a duration rounds to 0, clamped to 255 (43_command_status.md R199). -/
def beepUnits (ns : BitVec 64) : Byte :=
  let q := roundedUnits ns.toNat
  let bumped := if 0 < ns.toNat ∧ q = 0 then 1 else q
  let clamped := if Config.beepMaxUnits < bumped then Config.beepMaxUnits else bumped
  BitVec.ofNat 8 clamped

end Sys2Proof.Machine
end

