-- ==== Sys2Proof/Machine/Flags.lean ====
section
/-! DEFINITION. The flags and the STATUS register (10_state.md R26, R30, R33). -/

namespace Sys2Proof.Machine

/-- The number of a phase (10_state.md R22). -/
def phaseNumber : Phase → BitVec 3
  | .idle => 0
  | .tx => 1
  | .rxHdr => 2
  | .rxBody => 3

/-- The number of a fault cause (60_exceptions.md R239). -/
def faultNumber : FaultCode → BitVec 4
  | .none => 0
  | .illegalOp => 1
  | .hostOverlap => 2
  | .dataTooLong => 3
  | .badLedMode => 4
  | .noResult => 5

/-- The variant of a result (10_state.md R30). -/
def kindOf : Result → Kind
  | .empty => .empty
  | .decoded _ _ _ _ => .decoded
  | .frame _ => .frame
  | .checksum _ => .checksum
  | .exchanged _ _ => .exchanged
  | .infoText _ => .infoText
  | .done => .done
  | .tag _ => .tag
  | .noTag => .noTag
  | .error _ => .error

/-- The number of a variant (10_state.md R30). -/
def kindNumber : Kind → BitVec 4
  | .empty => 0
  | .decoded => 1
  | .frame => 2
  | .checksum => 3
  | .exchanged => 4
  | .infoText => 5
  | .done => 6
  | .tag => 7
  | .noTag => 8
  | .error => 9

/-- `busy` is `phase != IDLE`, no register of its own (10_state.md R22, R26). -/
def busy (s : State) : Bool := decide (s.phase ≠ .idle)

/-- `RES_KIND`: the kind of `res` when `res_valid = 1`, else 0 (10_state.md R33). -/
def shownKind (s : State) : BitVec 4 := if s.resValid then kindNumber (kindOf s.res) else 0

/-- The STATUS register, from bit 15 down to bit 0 (10_state.md R33). -/
def statusWord (s : State) : Half :=
  shownKind s ++ faultNumber s.faultCode ++ 0#1 ++ phaseNumber s.phase ++ 0#1
    ++ BitVec.ofBool s.fault ++ BitVec.ofBool s.resValid ++ BitVec.ofBool (busy s)

end Sys2Proof.Machine
end

