-- ==== Sys2Proof/Machine/Ops.lean ====
section
/-! DEFINITION. The shared operations: raising the sticky fault, completing an operation, accepting a request,
the error record, the interpretation of a status, and reset. -/

namespace Sys2Proof.Machine

/-- The three outcomes of a step of this machine. -/
abbrev StepOut := Host.Outcome State Fault Refusal

/-- `raise Fault(code)`: sets the sticky fault; the first fault's code is kept (60_exceptions.md R238). -/
def State.raise (s : State) (code : FaultCode) : State :=
  if s.fault then s else { s with fault := true, faultCode := code }

/-- `finish(r)`: the one way an operation completes (10_state.md R31). -/
def State.finish (s : State) (r : Result) : State :=
  { s with res := r, resValid := true, phase := .idle }

/-- The host's line has been carried out; its next line is the one after it (30_encoding.md R88). -/
def State.nextLine (s : State) : State := { s with todo := s.todo.tail }

/-- What every acceptance does before the operation's own action: `res_valid <- 0; op <- q.op` (60_exceptions.md R236).
`arg` is undefined for operations other than BEEP, BEEP_NS and LED (10_state.md section 2), so it takes a free value
here, and those three write it afterwards (log entry 3). -/
def State.accepted (s : State) (code : BitVec 4) : State :=
  { s.nextLine with
    resValid := false, op := code, arg := Config.freeArg s.draws, draws := s.draws + 1 }

/-- `Accept(q)` (60_exceptions.md R236): a faulted block does not accept the request; a busy one raises HOST_OVERLAP;
then the request's own fault, if it has one; then the acceptance and the operation's action. -/
def accept (code : BitVec 4) (bad : Option FaultCode) (act : State → State) (s : State) : StepOut :=
  if s.fault then .next s.nextLine
  else if s.phase ≠ .idle then .next (s.nextLine.raise .hostOverlap)
  else
    match bad with
    | some c => .next (s.nextLine.raise c)
    | none => .next (act (s.accepted code))

/-- The operand fault DATA_TOO_LONG for a byte sequence longer than `limit` (60_exceptions.md R236, R239). -/
def tooLong (limit : Nat) (data : List Byte) : Option FaultCode :=
  if limit < data.length then some .dataTooLong else none

/-- The operand fault BAD_LED_MODE for a mode above `0x02` (60_exceptions.md R236, R239). -/
def badMode (mode : Byte) : Option FaultCode :=
  if Config.ledGreen < mode then some .badLedMode else none

/-- The number of a terminator in an error record (60_exceptions.md R231). -/
def termNumber : Term → BitVec 2
  | .eos => 1
  | .err => 2

/-- `ErrorRecord(e, consumed)` (60_exceptions.md R231 to R235). -/
def errorRecord (e : Err) (consumed : Nat) : ErrorRec :=
  let zero : ErrorRec :=
    { cls := 0, ph := 0, det := 0, a := 0, b := 0, n := 0, term := 0, consumed := consumed }
  match e with
  | .writeRejected n => { zero with cls := 1, ph := 1, det := 1, n := n }
  | .readEos n => { zero with cls := 1, ph := 2, det := 2, n := n, term := 1 }
  | .readErr n => { zero with cls := 1, ph := 2, det := 3, n := n, term := 2 }
  | .shortHeader n t => { zero with cls := 2, ph := 3, det := 1, n := n, term := termNumber t }
  | .badPrefix a b => { zero with cls := 2, ph := 3, det := 2, a := a, b := b }
  | .badLength n => { zero with cls := 2, ph := 3, det := 3, n := n }
  | .integrity a b => { zero with cls := 3, ph := 3, a := a, b := b }
  | .status s => { zero with cls := 4, ph := 4, a := s }

/-- The protocol-status error as a result (60_exceptions.md R234). -/
def statusError (st : Byte) (consumed : Nat) : Result := .error (errorRecord (.status st) consumed)

/-- `Interpret(op, s, a)` (43_command_status.md R187), by the code in `op`; `consumed` goes into a status error's
record (60_exceptions.md R231). No value for a code that is no exchange operation: the table has no such row. -/
def interpret (code : BitVec 4) (st : Byte) (answer : List Byte) (consumed : Nat) : Option Result :=
  match code.toNat with
  | 0x5 => some (.exchanged st answer)
  | 0x6 => some (if st = Config.stOk then .infoText answer else statusError st consumed)
  | 0x7 => some (if st = Config.stOk then .done else statusError st consumed)
  | 0x8 => some (if st = Config.stOk then .done else statusError st consumed)
  | 0x9 => some (if st = Config.stOk then .done else statusError st consumed)
  | 0xA =>
    some (if st = Config.stOk then .tag answer
      else if st = Config.stNoTag then .noTag
      else statusError st consumed)
  | _ => none

/-- `Complete(o, consumed)` (43_command_status.md R185): an error is passed on unchanged; a parsed response is
interpreted by its status and answer alone, whatever its command (R186). -/
def complete (o : ParseOut) (consumed : Nat) (s : State) : StepOut :=
  match o with
  | .error e => .next (s.finish (.error (errorRecord e consumed)))
  | .ok _ st answer =>
    match interpret s.op st answer consumed with
    | some r => .next (s.finish r)
    | none => .fault .notAnExchange

/-- Reset of the block (70_reset_and_hazards.md R260): the registers take their reset values, those that R260 gives no
value the values of log entries 1 and 2; the streams, the transport and the host are not touched (R261). -/
def State.resetBlock (s : State) : State :=
  { State.reset with
    rx := s.rx, txAns := s.txAns, sent := s.sent
    todo := s.todo, script := s.script, reads := s.reads, draws := s.draws }

end Sys2Proof.Machine
end

