-- ==== Sys2Proof/Machine/Checksum.lean ====
section
/-! DEFINITION. The stand-alone operation of the XOR-checksum unit (40_checksum.md). -/

namespace Sys2Proof.Machine

/-- `CSUM` (40_checksum.md R106). -/
def execCsum (data : List Byte) (s : State) : StepOut :=
  accept 0x1 none (fun t => t.finish (.checksum (xorAll data))) s

end Sys2Proof.Machine
end

