-- ==== Sys2Proof/Machine/Reserved.lean ====
section
/-! DEFINITION. The reserved operation codes: Fault(ILLEGAL_OP) at acceptance (60_exceptions.md R237; 30_encoding.md
R83). -/

namespace Sys2Proof.Machine

/-- Operation code `0x0` (60_exceptions.md R237). -/
def execReservedZero (s : State) : StepOut := accept 0x0 (some .illegalOp) id s

/-- Operation codes `0xB` to `0xF` (60_exceptions.md R237). -/
def execReservedHigh (op : BitVec 4) (s : State) : StepOut := accept op (some .illegalOp) id s

end Sys2Proof.Machine
end

