-- ==== Sys2Proof/Machine/Encoder.lean ====
section
/-! DEFINITION. The frame encoder (41_frame_encoder.md) and its two operations. -/

namespace Sys2Proof.Machine

/-- A frame around its covered bytes: the prefix, the length `|covered| + 1`, the covered bytes and their checksum
(41_frame_encoder.md R120, R125). -/
def frameOf (covered : List Byte) : List Byte :=
  let len : Half := BitVec.ofNat 16 (covered.length + 1)
  [hi Config.framePrefix, lo Config.framePrefix, hi len, lo len] ++ covered ++ [xorAll covered]

/-- `EncodeReq(c, d)` (41_frame_encoder.md R120); used only with `|d| <= 65532` (R123). -/
def encodeReq (c : Half) (d : List Byte) : List Byte := frameOf ([hi c, lo c] ++ d)

/-- `EncodeRsp(c, s, a)` (41_frame_encoder.md R125); used only with `|a| <= 65531` (R127). -/
def encodeRsp (c : Half) (st : Byte) (a : List Byte) : List Byte := frameOf ([hi c, lo c, st] ++ a)

/-- `ENC_REQ` (41_frame_encoder.md R121). -/
def execEncReq (cmd : Half) (data : List Byte) (s : State) : StepOut :=
  accept 0x2 (tooLong Config.maxReqData data) (fun t => t.finish (.frame (encodeReq cmd data))) s

/-- `ENC_RSP` (41_frame_encoder.md R126). -/
def execEncRsp (cmd : Half) (st : Byte) (answer : List Byte) (s : State) : StepOut :=
  accept 0x3 (tooLong Config.maxRspAnswer answer)
    (fun t => t.finish (.frame (encodeRsp cmd st answer))) s

end Sys2Proof.Machine
end

