-- ==== Sys2Proof/Machine/Parser.lean ====
section
/-! DEFINITION. The frame parser (42_frame_parser.md): the parse function over a stream, the `DEC` operation that runs
it, and the byte-serial sequencer that an exchange runs. -/

namespace Sys2Proof.Machine

/-- What reading a wanted number of bytes from a stream gives: the bytes; or the item that ended the stream and the
bytes before it; or, when the stream offers nothing more, a wait (20_memory.md R52). -/
inductive Taken where
  | got (bytes : List Byte) (rest : List RxItem)
  | ended (bytes : List Byte) (term : Term) (rest : List RxItem)
  | waiting

/-- One more byte before what was taken. -/
def Taken.cons (b : Byte) : Taken → Taken
  | .got bytes rest => .got (b :: bytes) rest
  | .ended bytes term rest => .ended (b :: bytes) term rest
  | .waiting => .waiting

/-- Read `n` bytes with `RxNext` (20_memory.md R52; the two loops of 42_frame_parser.md R141). -/
def takeBytes : Nat → List RxItem → Taken
  | 0, items => .got [] items
  | _ + 1, [] => .waiting
  | n + 1, .byte b :: rest => (takeBytes n rest).cons b
  | _ + 1, .eos :: rest => .ended [] .eos rest
  | _ + 1, .err :: rest => .ended [] .err rest

/-- The end of a short body read, by the item that ended it (42_frame_parser.md R145). -/
def bodyEnd (n : Nat) : Term → Err
  | .eos => .readEos n
  | .err => .readErr n

/-- The checksum test and the fields of a whole body (42_frame_parser.md R146, R147). -/
def parseBody (r : List Byte) : ParseOut :=
  let x := xorAll (slice r 0 (r.length - 1))
  let ck := byteAt r (r.length - 1)
  if x ≠ ck then .error (.integrity x ck)
  else .ok (joinHalf (byteAt r 0) (byteAt r 1)) (byteAt r 2) (slice r 3 (r.length - 1))

/-- `Parse()` (42_frame_parser.md R141): the outcome, the number of bytes consumed, and the items left in the stream
(R148); no value while the stream offers too few items and none that ends it (R155). -/
def parse (items : List RxItem) : Option (ParseOut × Nat × List RxItem) :=
  match takeBytes 4 items with
  | .waiting => none
  | .ended h term rest => some (.error (.shortHeader h.length term), h.length, rest)
  | .got h rest =>
    if byteAt h 0 ≠ hi Config.framePrefix ∨ byteAt h 1 ≠ lo Config.framePrefix then
      some (.error (.badPrefix (byteAt h 0) (byteAt h 1)), 4, rest)
    else if be16 (byteAt h 2) (byteAt h 3) < Config.minLen then
      some (.error (.badLength (be16 (byteAt h 2) (byteAt h 3))), 4, rest)
    else
      match takeBytes (be16 (byteAt h 2) (byteAt h 3)) rest with
      | .waiting => none
      | .ended r term rest' => some (.error (bodyEnd r.length term), 4 + r.length, rest')
      | .got r rest' => some (parseBody r, 4 + r.length, rest')

/-- A terminator as a stream item (42_frame_parser.md R160). -/
def termItem : Term → RxItem
  | .eos => .eos
  | .err => .err

/-- The items `DEC` parses: its bytes, then its terminator (42_frame_parser.md R160). -/
def decItems (data : List Byte) (term : Term) : List RxItem := data.map .byte ++ [termItem term]

/-- The result of `DEC` (42_frame_parser.md R160). The items end in a terminator, so the parser never waits: the last
case is never taken, and answers the record that stands for no result. -/
def decResult (data : List Byte) (term : Term) : Result :=
  match parse (decItems data term) with
  | some (.ok c st a, consumed, _) => .decoded c st a consumed
  | some (.error e, consumed, _) => .error (errorRecord e consumed)
  | none => .empty

/-- `DEC` (42_frame_parser.md R160). -/
def execDec (data : List Byte) (term : Term) (s : State) : StepOut :=
  accept 0x4 none (fun t => t.finish (decResult data term)) s

/-- `HeaderCheck()`, in the step that received the fourth header byte (42_frame_parser.md R151). -/
def headerCheck (s : State) : StepOut :=
  let len := be16 s.hbuf.b2 s.hbuf.b3
  if s.hbuf.b0 ≠ hi Config.framePrefix ∨ s.hbuf.b1 ≠ lo Config.framePrefix then
    complete (.error (.badPrefix s.hbuf.b0 s.hbuf.b1)) 4 s
  else if len < Config.minLen then complete (.error (.badLength len)) 4 s
  else .next { s with rlen := len, bcnt := 0, xacc := 0x00, rbuf := [], phase := .rxBody }

/-- A header byte received (42_frame_parser.md R150). -/
def headerByte (b : Byte) (s : State) : StepOut :=
  let t : State := { s with hbuf := setHeaderByte s.hbuf s.hcnt b, hcnt := s.hcnt + 1 }
  if t.hcnt = 4 then headerCheck t else .next t

/-- The `RX_HDR` step (42_frame_parser.md R150): one step per item, none while the stream offers no item (R149; log
entry 5). -/
def rxHdrStep (s : State) : StepOut :=
  if s.hcnt < 4 then
    match s.rx with
    | [] => .next s
    | .byte b :: rest => headerByte b { s with rx := rest }
    | .eos :: rest => complete (.error (.shortHeader s.hcnt .eos)) s.hcnt { s with rx := rest }
    | .err :: rest => complete (.error (.shortHeader s.hcnt .err)) s.hcnt { s with rx := rest }
  else .fault .headerCountOutOfRange

/-- `BodyCheck(b)`, in the step that received the last body byte (42_frame_parser.md R153). -/
def bodyCheck (b : Byte) (s : State) : StepOut :=
  if s.xacc ≠ b then complete (.error (.integrity s.xacc b)) (4 + s.rlen) s
  else
    complete (.ok (joinHalf (byteAt s.rbuf 0) (byteAt s.rbuf 1)) (byteAt s.rbuf 2)
      (slice s.rbuf 3 (s.rlen - 1))) (4 + s.rlen) s

/-- A body byte received, with the checksum accumulated over all but the last (42_frame_parser.md R152; 40_checksum.md
R104). -/
def bodyByte (b : Byte) (s : State) : StepOut :=
  let t : State :=
    { s with
      rbuf := s.rbuf ++ [b]
      xacc := if s.bcnt < s.rlen - 1 then s.xacc ^^^ b else s.xacc
      bcnt := s.bcnt + 1 }
  if t.bcnt = t.rlen then bodyCheck b t else .next t

/-- The `RX_BODY` step (42_frame_parser.md R152). -/
def rxBodyStep (s : State) : StepOut :=
  if s.bcnt < s.rlen then
    match s.rx with
    | [] => .next s
    | .byte b :: rest => bodyByte b { s with rx := rest }
    | .eos :: rest => complete (.error (.readEos s.bcnt)) (4 + s.bcnt) { s with rx := rest }
    | .err :: rest => complete (.error (.readErr s.bcnt)) (4 + s.bcnt) { s with rx := rest }
  else .fault .bodyCountOutOfRange

end Sys2Proof.Machine
end

