-- ==== Sys2Proof/Machine/Exchange.lean ====
section
/-! DEFINITION. The command/status unit (43_command_status.md): the acceptance of the exchange operations, the transmit
step, and the block's own step. -/

namespace Sys2Proof.Machine

/-- `StartExchange(c, d)` (43_command_status.md R181) after its length test, which stands before the acceptance
(60_exceptions.md R236). -/
def State.startExchange (s : State) (c : Half) (d : List Byte) : State :=
  { s with cmd := c, txbuf := encodeReq c d, txidx := 0, phase := .tx }

/-- `XCHG` (43_command_status.md R182). -/
def execXchg (cmd : Half) (data : List Byte) (s : State) : StepOut :=
  accept 0x5 (tooLong Config.maxReqData data) (fun t => t.startExchange cmd data) s

/-- `INFO` (43_command_status.md R190). -/
def execInfo (s : State) : StepOut := accept 0x6 none (fun t => t.startExchange Config.cmdInfo []) s

/-- `BEEP` (43_command_status.md R193); `arg` holds the one data byte (R181). -/
def execBeep (units : Byte) (s : State) : StepOut :=
  accept 0x7 none (fun t => { t with arg := units }.startExchange Config.cmdBeep [units]) s

/-- `BEEP_NS` (43_command_status.md R200). -/
def execBeepNs (ns : BitVec 64) (s : State) : StepOut :=
  accept 0x8 none
    (fun t => { t with arg := beepUnits ns }.startExchange Config.cmdBeep [beepUnits ns]) s

/-- `LED` (43_command_status.md R203). -/
def execLed (mode : Byte) (s : State) : StepOut :=
  accept 0x9 (badMode mode) (fun t => { t with arg := mode }.startExchange Config.cmdLed [mode]) s

/-- `READ_TAG` (43_command_status.md R206). -/
def execReadTag (s : State) : StepOut :=
  accept 0xA none (fun t => t.startExchange Config.cmdRead []) s

/-- The transmit side took the offered byte (43_command_status.md R183). -/
def txAck (b : Byte) (s : State) : State :=
  let t : State := { s with sent := s.sent ++ [b], txidx := s.txidx + 1 }
  if t.txidx = t.txbuf.length then { t with phase := .rxHdr, hcnt := 0 } else t

/-- The `TX` step (43_command_status.md R183, R184): one step per answered byte, none while the transmit side gives no
answer (20_memory.md R51; log entry 5). -/
def txStep (s : State) : StepOut :=
  match s.txbuf[s.txidx]? with
  | none => .fault .txIndexOutOfRange
  | some b =>
    match s.txAns with
    | [] => .next s
    | .ack :: rest => .next (txAck b { s with txAns := rest })
    | .err :: rest => complete (.error (.writeRejected s.txidx)) 0 { s with txAns := rest }

/-- The block's own step: none when it is faulted (60_exceptions.md R238) or idle, else the step of its phase. -/
def blockStep (s : State) : StepOut :=
  if s.fault then .next s
  else
    match s.phase with
    | .idle => .next s
    | .tx => txStep s
    | .rxHdr => rxHdrStep s
    | .rxBody => rxBodyStep s

end Sys2Proof.Machine
end

