-- ==== Sys2Proof/Machine/Wire.lean ====
section
/-! DEFINITION. The wire commands of 30_encoding.md R77, each sent by the raw exchange, which takes any command and any
data (R84; 43_command_status.md R182, R209; log entry 7). -/

namespace Sys2Proof.Machine

/-- The raw exchange of `CMD_BEEP` (30_encoding.md R77, 43_command_status.md R182). -/
def execCmdBeep (data : List Byte) (s : State) : StepOut := execXchg Config.cmdBeep data s

/-- The raw exchange of `CMD_READ`. -/
def execCmdRead (data : List Byte) (s : State) : StepOut := execXchg Config.cmdRead data s

/-- The raw exchange of `CMD_INFO`. -/
def execCmdInfo (data : List Byte) (s : State) : StepOut := execXchg Config.cmdInfo data s

/-- The raw exchange of `CMD_LED` (30_encoding.md R85: it sends any data byte). -/
def execCmdLed (data : List Byte) (s : State) : StepOut := execXchg Config.cmdLed data s

/-- The raw exchange of `CMD_WRITE2` (43_command_status.md R209). -/
def execCmdWrite2 (data : List Byte) (s : State) : StepOut := execXchg Config.cmdWrite2 data s

/-- The raw exchange of `CMD_WRITE3` (43_command_status.md R209). -/
def execCmdWrite3 (data : List Byte) (s : State) : StepOut := execXchg Config.cmdWrite3 data s

end Sys2Proof.Machine
end

