-- ==== Sys2Proof/Machine/Dispatch.lean ====
section
/-! DEFINITION. One arm for each instruction: its acceptance step (60_exceptions.md R236). -/

namespace Sys2Proof.Machine

def exec (i : Instr) (s : State) : Host.Outcome State Fault Refusal :=
  match i with
  | .csum data => Sys2Proof.Machine.execCsum data s
  | .encReq cmd data => Sys2Proof.Machine.execEncReq cmd data s
  | .encRsp cmd st answer => Sys2Proof.Machine.execEncRsp cmd st answer s
  | .dec data term => Sys2Proof.Machine.execDec data term s
  | .xchg cmd data => Sys2Proof.Machine.execXchg cmd data s
  | .info => Sys2Proof.Machine.execInfo s
  | .beep units => Sys2Proof.Machine.execBeep units s
  | .beepNs ns => Sys2Proof.Machine.execBeepNs ns s
  | .led mode => Sys2Proof.Machine.execLed mode s
  | .readTag => Sys2Proof.Machine.execReadTag s
  | .reservedZero => Sys2Proof.Machine.execReservedZero s
  | .reservedHigh op => Sys2Proof.Machine.execReservedHigh op s
  | .cmdBeep data => Sys2Proof.Machine.execCmdBeep data s
  | .cmdRead data => Sys2Proof.Machine.execCmdRead data s
  | .cmdInfo data => Sys2Proof.Machine.execCmdInfo data s
  | .cmdLed data => Sys2Proof.Machine.execCmdLed data s
  | .cmdWrite2 data => Sys2Proof.Machine.execCmdWrite2 data s
  | .cmdWrite3 data => Sys2Proof.Machine.execCmdWrite3 data s

end Sys2Proof.Machine
end

