-- ==== Sys2Proof/Machine/HostPort.lean ====
section
/-! DEFINITION. The host's lines other than presenting a request: reading STATUS and the result port, reset, and the
control of a host script (10_state.md R33, R34; 70_reset_and_hazards.md R260; 30_encoding.md R88). -/

namespace Sys2Proof.Machine

/-- A request of a script: it is presented, and the host then waits for its end (30_encoding.md R88). -/
def scriptRequest (r : Request) : List HostLine := [.present r, .await]

/-- The host reads STATUS (10_state.md R33), at any time, of a faulted block too (60_exceptions.md R238). -/
def hostReadStatus (s : State) : StepOut :=
  .next { s.nextLine with reads := .status (statusWord s) :: s.reads }

/-- The host reads the result port: the result when `res_valid = 1`, which stays (10_state.md R26); otherwise
Fault(NO_RESULT) (10_state.md R34). -/
def hostReadResult (s : State) : StepOut :=
  if s.resValid then .next { s.nextLine with reads := .result s.res :: s.reads }
  else .next (s.nextLine.raise .noResult)

/-- The host asserts reset, in one step (70_reset_and_hazards.md R260, R261). -/
def hostReset (s : State) : StepOut := .next s.nextLine.resetBlock

/-- The host does nothing while the block takes one step of its own. -/
def hostIdle (s : State) : StepOut := blockStep s.nextLine

/-- The wait after a request (30_encoding.md R88): a faulted block ends the script here; a result is read; until then
the block takes its steps. -/
def hostAwait (s : State) : StepOut :=
  if s.fault then .next s
  else if s.resValid then .next { s.nextLine with reads := .result s.res :: s.reads }
  else blockStep s

/-- A label line does nothing (30_encoding.md R88). -/
def hostLabel (s : State) : StepOut := .next s.nextLine

/-- The lines of a script after the first line that is the label `name`. -/
def linesAfter (name : Nat) : List HostLine → Option (List HostLine)
  | [] => none
  | line :: rest => if line = .label name then some rest else linesAfter name rest

/-- `goto name` (30_encoding.md R88; a script without the label: log entry 11). -/
def hostGoto (name : Nat) (s : State) : StepOut :=
  match linesAfter name s.script with
  | some lines => .next { s with todo := lines }
  | none => .fault .noSuchLabel

/-- The variant of the last result the host read, if it has read one. -/
def lastKind : List HostRead → Option Kind
  | [] => none
  | .result r :: _ => some (kindOf r)
  | .status _ :: rest => lastKind rest

/-- `if KIND goto name` jumps when the last result has that variant (30_encoding.md R88). -/
def hostIfKind (kind : Kind) (name : Nat) (s : State) : StepOut :=
  if lastKind s.reads = some kind then hostGoto name s else .next s.nextLine

/-- `halt`: the host does nothing more (30_encoding.md R88); the block goes on by itself. -/
def hostHalt (s : State) : StepOut := blockStep s

end Sys2Proof.Machine
end

