-- ==== Sys2Proof/Machine/Step.lean ====
section
/-! DEFINITION. One step of the whole machine: the host's next line, or, when the host does nothing, a step of the
block (00_scope.md R4; log entry 4). -/

namespace Sys2Proof.Machine

/-- One step. A presented request is read by the decoder and run by `exec`, which also moves the host past its line. -/
def step (s : State) : Host.Outcome State Fault Refusal :=
  match s.todo with
  | [] => blockStep s
  | .present r :: _ => exec (decode r) s
  | .readStatus :: _ => hostReadStatus s
  | .readResult :: _ => hostReadResult s
  | .reset :: _ => hostReset s
  | .idle :: _ => hostIdle s
  | .await :: _ => hostAwait s
  | .label _ :: _ => hostLabel s
  | .goto name :: _ => hostGoto name s
  | .ifKind kind name :: _ => hostIfKind kind name s
  | .halt :: _ => hostHalt s

/-- `s` with the instruction whose bits are `w` as the request the host presents next (log entry 12). -/
def State.withFetchWord (s : State) (nbits w : Nat) : State :=
  match requestOfTableWord nbits w with
  | some r => { s with todo := .present r :: s.todo.tail }
  | none => s

end Sys2Proof.Machine
end

