-- ==== Sys2Proof/Safety.lean ====
section
/-! DEFINITION. What statements about runs speak of: the invariant of the machine, agreement of two states on everything
that a rule reads, and the exchange operations with the frame each one sends. -/

namespace Sys2Proof.Machine

/-- The code is one of the six exchange operations (30_encoding.md R80, 10_state.md R41). -/
def exchangeCode (code : BitVec 4) : Bool := decide (0x5 ≤ code.toNat ∧ code.toNat ≤ 0xA)

/-- A whole frame: prefix, a length field equal to the byte count minus 4, a valid checksum (41_frame_encoder.md R129,
30_encoding.md R71). -/
abbrev ValidFrame (f : List Byte) : Prop :=
  5 ≤ f.length ∧ f.length ≤ 65539 ∧ byteAt f 0 = hi Config.framePrefix ∧ byteAt f 1 = lo Config.framePrefix
    ∧ be16 (byteAt f 2) (byteAt f 3) + 4 = f.length ∧ xorAll (f.drop 4) = 0x00

/-- Every counter and buffer lies in its width (10_state.md R21, R35). -/
abbrev State.WidthsHold (s : State) : Prop :=
  s.txbuf.length ≤ 65539 ∧ s.txidx ≤ 65539 ∧ s.hcnt ≤ 4 ∧ s.rlen ≤ 65535 ∧ s.rbuf.length ≤ 65535 ∧ s.bcnt ≤ 65535

/-- The sequencer stands where the rules of its phase give a step (10_state.md R25), and a busy block runs an exchange
and shows no result (10_state.md R32). -/
abbrev State.SequencerHolds (s : State) : Prop :=
  (s.phase = .tx → s.txidx < s.txbuf.length)
    ∧ (s.phase = .rxHdr → s.hcnt < 4)
    ∧ (s.phase = .rxBody → s.hcnt = 4 ∧ 4 ≤ s.rlen ∧ s.bcnt < s.rlen)
    ∧ (s.phase ≠ .idle → exchangeCode s.op = true ∧ s.resValid = false)

/-- In RX_BODY the header has passed its checks and the accumulator is the checksum of the body so far (42_frame_parser.md
R151, 40_checksum.md R105). -/
abbrev State.BodyHolds (s : State) : Prop :=
  s.phase = .rxBody →
    s.hbuf.b0 = hi Config.framePrefix ∧ s.hbuf.b1 = lo Config.framePrefix ∧ s.rlen = be16 s.hbuf.b2 s.hbuf.b3
      ∧ s.rbuf.length = s.bcnt ∧ s.xacc = xorAll s.rbuf

/-- A busy block has sent exactly the bytes before `txidx`, in order, of a whole frame; once it receives, it has sent
all of it (20_memory.md R63, R64; 41_frame_encoder.md R129). -/
abbrev State.OrderHolds (s : State) : Prop :=
  (s.phase ≠ .idle → ValidFrame s.txbuf)
    ∧ (s.phase = .tx → s.txbuf.take s.txidx <:+ s.sent)
    ∧ (s.phase = .rxHdr ∨ s.phase = .rxBody → s.txbuf <:+ s.sent)

/-- The flags: a fault has a cause and only a fault has one (60_exceptions.md R239); a valid result is of a kind that is
stored (10_state.md R30). -/
abbrev State.FlagsHold (s : State) : Prop :=
  (s.fault = true ↔ s.faultCode ≠ .none) ∧ (s.resValid = true → kindOf s.res ≠ .empty)

/-- The invariant of the machine. -/
abbrev State.Inv (s : State) : Prop :=
  s.WidthsHold ∧ s.SequencerHolds ∧ s.BodyHolds ∧ s.OrderHolds ∧ s.FlagsHold

/-- The first `n` header bytes agree. -/
abbrev headersAgree (n : Nat) (h k : Header) : Prop :=
  (0 < n → h.b0 = k.b0) ∧ (1 < n → h.b1 = k.b1) ∧ (2 < n → h.b2 = k.b2) ∧ (3 < n → h.b3 = k.b3)

/-- Two states that differ at most in registers that hold no value in the present phase (10_state.md R23): the working
registers of other phases, `cmd`, `arg`, and a result that is not valid. The counter `draws` is the model's own. -/
abbrev State.Agree (s t : State) : Prop :=
  s.phase = t.phase ∧ s.fault = t.fault ∧ s.faultCode = t.faultCode
    ∧ s.resValid = t.resValid ∧ (s.resValid = true → s.res = t.res)
    ∧ s.rx = t.rx ∧ s.txAns = t.txAns ∧ s.sent = t.sent
    ∧ s.todo = t.todo ∧ s.script = t.script ∧ s.reads = t.reads
    ∧ (s.phase ≠ .idle → s.op = t.op)
    ∧ (s.phase = .tx → s.txbuf = t.txbuf ∧ s.txidx = t.txidx)
    ∧ (s.phase = .rxHdr → s.hcnt = t.hcnt ∧ headersAgree s.hcnt s.hbuf t.hbuf)
    ∧ (s.phase = .rxBody → s.rlen = t.rlen ∧ s.rbuf = t.rbuf ∧ s.bcnt = t.bcnt ∧ s.xacc = t.xacc)

/-- The same outcome, with agreeing next states. -/
def outcomesAgree : StepOut → StepOut → Prop
  | .next s, .next t => s.Agree t
  | .fault a, .fault b => a = b
  | .refused a, .refused b => a = b
  | .next _, .fault _ => False
  | .next _, .refused _ => False
  | .fault _, .next _ => False
  | .fault _, .refused _ => False
  | .refused _, .next _ => False
  | .refused _, .fault _ => False

/-- The block's sixteen registers alone (10_state.md R21), everything around them blank. -/
def State.registers (s : State) : State :=
  { s with rx := [], txAns := [], sent := [], todo := [], script := [], reads := [], draws := 0 }

/-- For an exchange operation, the code `op` holds, the command and the data of its request frame (43_command_status.md
R182 to R206; 30_encoding.md R77). -/
def exchangeOf : Instr → Option (BitVec 4 × Half × List Byte)
  | .csum _ => none
  | .encReq _ _ => none
  | .encRsp _ _ _ => none
  | .dec _ _ => none
  | .xchg cmd data => some (0x5, cmd, data)
  | .info => some (0x6, Config.cmdInfo, [])
  | .beep units => some (0x7, Config.cmdBeep, [units])
  | .beepNs ns => some (0x8, Config.cmdBeep, [beepUnits ns])
  | .led mode => some (0x9, Config.cmdLed, [mode])
  | .readTag => some (0xA, Config.cmdRead, [])
  | .reservedZero => none
  | .reservedHigh _ => none
  | .cmdBeep data => some (0x5, Config.cmdBeep, data)
  | .cmdRead data => some (0x5, Config.cmdRead, data)
  | .cmdInfo data => some (0x5, Config.cmdInfo, data)
  | .cmdLed data => some (0x5, Config.cmdLed, data)
  | .cmdWrite2 data => some (0x5, Config.cmdWrite2, data)
  | .cmdWrite3 data => some (0x5, Config.cmdWrite3, data)

/-- The operand fault of an instruction, if its operands have one (60_exceptions.md R236). -/
def operandFault : Instr → Option FaultCode
  | .csum _ => none
  | .encReq _ data => tooLong 65532 data
  | .encRsp _ _ answer => tooLong 65531 answer
  | .dec _ _ => none
  | .xchg _ data => tooLong 65532 data
  | .info => none
  | .beep _ => none
  | .beepNs _ => none
  | .led mode => badMode mode
  | .readTag => none
  | .reservedZero => some .illegalOp
  | .reservedHigh _ => some .illegalOp
  | .cmdBeep data => tooLong 65532 data
  | .cmdRead data => tooLong 65532 data
  | .cmdInfo data => tooLong 65532 data
  | .cmdLed data => tooLong 65532 data
  | .cmdWrite2 data => tooLong 65532 data
  | .cmdWrite3 data => tooLong 65532 data

end Sys2Proof.Machine
end

