-- ==== Sys2Proof/Certificates/Slice0/Obligations.lean ====
section
/-! DEFINITION. The statements for the provers, each from the numbered rules of spec/ that its docstring names.

Where a next state is given as an update of `s`, every field the update does not name is unchanged: that is the frame. Two
fields of it are left open by `∃`: `arg`, which 10_state.md section 2 leaves undefined after most operations, and `draws`,
the model's own counter (log entry 3). Nothing is claimed of either. -/

open Sys2Proof Sys2Proof.Machine

/-! ## Encodings -/

/-- A step on a presented request is `exec` of the instruction the decoder reads from it, and the host is past its line
afterwards, whatever the request does (60_exceptions.md R236, 20_memory.md R60, R67). That a request refused by a faulted
block is used up too is the model's reading (log entry 6, DEDUCED): R236 does not say whether the host presents it again. -/
def Obligations.StepRunsThePresentedRequest : Prop :=
  ∀ (s : State) (r : Request) (rest : List HostLine), s.todo = .present r :: rest →
    step s = exec (decode r) s ∧ ∃ t, step s = .next t ∧ t.todo = rest

/-- A request record is read by its operation code, and only the fields that 30_encoding.md R80 lists for the code are
read (R81); 0x0 and 0xB to 0xF are the reserved codes (R83). -/
def Obligations.RequestRecordsDecodeByOperationCode : Prop :=
  ∀ (cmd : Half) (st arg : Byte) (ns : BitVec 64) (data : List Byte) (term : Term),
    decode (.record ⟨0b0000, cmd, st, arg, ns, data, term⟩) = .reservedZero
    ∧ decode (.record ⟨0b0001, cmd, st, arg, ns, data, term⟩) = .csum data
    ∧ decode (.record ⟨0b0010, cmd, st, arg, ns, data, term⟩) = .encReq cmd data
    ∧ decode (.record ⟨0b0011, cmd, st, arg, ns, data, term⟩) = .encRsp cmd st data
    ∧ decode (.record ⟨0b0100, cmd, st, arg, ns, data, term⟩) = .dec data term
    ∧ decode (.record ⟨0b0101, cmd, st, arg, ns, data, term⟩) = .xchg cmd data
    ∧ decode (.record ⟨0b0110, cmd, st, arg, ns, data, term⟩) = .info
    ∧ decode (.record ⟨0b0111, cmd, st, arg, ns, data, term⟩) = .beep arg
    ∧ decode (.record ⟨0b1000, cmd, st, arg, ns, data, term⟩) = .beepNs ns
    ∧ decode (.record ⟨0b1001, cmd, st, arg, ns, data, term⟩) = .led arg
    ∧ decode (.record ⟨0b1010, cmd, st, arg, ns, data, term⟩) = .readTag
    ∧ decode (.record ⟨0b1011, cmd, st, arg, ns, data, term⟩) = .reservedHigh 0b1011
    ∧ decode (.record ⟨0b1100, cmd, st, arg, ns, data, term⟩) = .reservedHigh 0b1100
    ∧ decode (.record ⟨0b1101, cmd, st, arg, ns, data, term⟩) = .reservedHigh 0b1101
    ∧ decode (.record ⟨0b1110, cmd, st, arg, ns, data, term⟩) = .reservedHigh 0b1110
    ∧ decode (.record ⟨0b1111, cmd, st, arg, ns, data, term⟩) = .reservedHigh 0b1111

/-- A raw command is read by its wire code (30_encoding.md R77); a code outside the set of six is the raw exchange of that
code (R84). That a code has one name rests on R6's premise, which the model keeps by construction (log entry 8). -/
def Obligations.RawCommandsDecodeByWireCode : Prop :=
  ∀ (data : List Byte),
    decode (.wire 0x0103 data) = .cmdBeep data
    ∧ decode (.wire 0x010C data) = .cmdRead data
    ∧ decode (.wire Config.cmdInfo data) = .cmdInfo data
    ∧ decode (.wire Config.cmdLed data) = .cmdLed data
    ∧ decode (.wire Config.cmdWrite2 data) = .cmdWrite2 data
    ∧ decode (.wire Config.cmdWrite3 data) = .cmdWrite3 data
    ∧ ∀ c : Half,
        c ∉ [0x0103, 0x010C, Config.cmdInfo, Config.cmdLed, Config.cmdWrite2, Config.cmdWrite3] →
          decode (.wire c data) = .xchg c data

/-- Decoding the request of a well-formed instruction gives the instruction back, with every operand at every value, and
whatever the host presents decodes to a well-formed instruction (30_encoding.md R77, R80, R81, R84). -/
def Obligations.DecodeInvertsEncode : Prop :=
  (∀ i : Instr, WellFormed i = true → decode (encode i) = i)
  ∧ ∀ r : Request, WellFormed (decode r) = true

/-- The six command codes are pairwise different (00_scope.md R6), whatever the four open ones are; R6's premise is kept
by construction (log entry 8). -/
def Obligations.CommandCodesArePairwiseDistinct : Prop :=
  [Config.cmdInfo, Config.cmdBeep, Config.cmdLed, Config.cmdRead, Config.cmdWrite2, Config.cmdWrite3].Pairwise (· ≠ ·)

/-- The pseudo-operations expand as 30_encoding.md R87 lists them. -/
def Obligations.PseudoOperationsExpand : Prop :=
  (∀ data, Pseudo.expand (.write2 data) = some (.xchg Config.cmdWrite2 data)
    ∧ Pseudo.expand (.write3 data) = some (.xchg Config.cmdWrite3 data))
  ∧ Pseudo.expand .ledOff = some (.led 0x00)
  ∧ Pseudo.expand .ledRed = some (.led 0x01)
  ∧ Pseudo.expand .ledGreen = some (.led 0x02)
  ∧ Pseudo.expand .beepForever = some (.beep 0)
  ∧ (∀ (n : Nat) (ns : BitVec 64), ns.toNat = n * 1000000 → Pseudo.expand (.beepMs n) = some (.beepNs ns))
  ∧ ∀ (n : Nat) (ns : BitVec 64), ns.toNat = n * 1000000000 → Pseudo.expand (.beepS n) = some (.beepNs ns)

/-! ## Reset -/

/-- The values that 70_reset_and_hazards.md R260 gives, in the state after reset. -/
def Obligations.ResetStateHoldsTheGivenValues : Prop :=
  State.reset.phase = .idle ∧ State.reset.txidx = 0 ∧ State.reset.hcnt = 0 ∧ State.reset.bcnt = 0
    ∧ State.reset.xacc = 0x00 ∧ State.reset.resValid = false ∧ State.reset.fault = false
    ∧ State.reset.faultCode = .none ∧ statusWord State.reset = 0x0000

/-- Reset takes effect in one step in every state, faulted or busy too (70_reset_and_hazards.md R260), and does not touch
the streams (R261). -/
def Obligations.ResetActsAtAnyTimeAndLeavesTheStreams : Prop :=
  ∀ (s : State) (rest : List HostLine), s.todo = .reset :: rest →
    ∃ t, step s = .next t
      ∧ t.phase = .idle ∧ t.txidx = 0 ∧ t.hcnt = 0 ∧ t.bcnt = 0 ∧ t.xacc = 0x00
      ∧ t.resValid = false ∧ t.fault = false ∧ t.faultCode = .none ∧ statusWord t = 0x0000
      ∧ t.rx = s.rx ∧ t.txAns = s.txAns ∧ t.sent = s.sent
      ∧ t.todo = rest ∧ t.script = s.script ∧ t.reads = s.reads

/-! ## Acceptance and faults -/

/-- The checks of a presented request record, in the order of 60_exceptions.md R236; a request that faults changes nothing but
the fault and its code, and an accepted one has its code in `op` and no result left from before. That the host is past the
line of a request which a faulted block does not accept is the model's reading (log entry 6, DEDUCED). -/
def Obligations.AcceptanceChecksInOrder : Prop :=
  ∀ (q : Req) (s : State),
    if s.fault = true then exec (decodeReq q) s = .next { s with todo := s.todo.tail }
    else if s.phase ≠ .idle then
      exec (decodeReq q) s = .next { s with todo := s.todo.tail, fault := true, faultCode := .hostOverlap }
    else if q.op = 0x0 ∨ 0xB ≤ q.op.toNat then
      exec (decodeReq q) s = .next { s with todo := s.todo.tail, fault := true, faultCode := .illegalOp }
    else if (q.op = 0x2 ∨ q.op = 0x5) ∧ 65532 < q.data.length then
      exec (decodeReq q) s = .next { s with todo := s.todo.tail, fault := true, faultCode := .dataTooLong }
    else if q.op = 0x3 ∧ 65531 < q.data.length then
      exec (decodeReq q) s = .next { s with todo := s.todo.tail, fault := true, faultCode := .dataTooLong }
    else if q.op = 0x9 ∧ 0x02 < q.arg.toNat then
      exec (decodeReq q) s = .next { s with todo := s.todo.tail, fault := true, faultCode := .badLedMode }
    else
      ∃ t, exec (decodeReq q) s = .next t ∧ t.op = q.op ∧ t.fault = false
        ∧ (t.phase = .tx ∧ t.resValid = false ∨ t.phase = .idle ∧ t.resValid = true)

/-- A faulted block accepts no request: nothing of it changes (60_exceptions.md R236, R238). That the host is past its line
is the model's reading (log entry 6, DEDUCED). -/
def Obligations.FaultedBlockAcceptsNothing : Prop :=
  ∀ (i : Instr) (s : State), s.fault = true → exec i s = .next { s with todo := s.todo.tail }

/-- A request while busy raises HOST_OVERLAP, before its code or its operands are looked at, and changes nothing but the
fault and its code: the exchange in flight stays where it is (60_exceptions.md R236, R238, R240). -/
def Obligations.RequestWhileBusyRaisesHostOverlap : Prop :=
  ∀ (i : Instr) (s : State), s.fault = false → s.phase ≠ .idle →
    exec i s = .next { s with todo := s.todo.tail, fault := true, faultCode := .hostOverlap }

/-- The reserved codes raise ILLEGAL_OP and change nothing else (60_exceptions.md R237; 30_encoding.md R83). -/
def Obligations.ReservedCodesRaiseIllegalOp : Prop :=
  ∀ (op : BitVec 4) (s : State), s.fault = false → s.phase = .idle →
    exec .reservedZero s = .next { s with todo := s.todo.tail, fault := true, faultCode := .illegalOp }
    ∧ exec (.reservedHigh op) s = .next { s with todo := s.todo.tail, fault := true, faultCode := .illegalOp }

/-- From IDLE, an accepted one-step operation completes in the same step and stays IDLE, and an accepted exchange
operation goes to TX (10_state.md R41). That the six wire commands are among the exchange operations, as raw exchanges, is
the model's choice (log entry 7, DESIGN CHOICE); R41 does not list them. -/
def Obligations.AcceptedOperationsCompleteOrStartTransmitting : Prop :=
  ∀ (i : Instr) (s : State), s.fault = false → s.phase = .idle → operandFault i = none →
    ∃ t, exec i s = .next t ∧ t.fault = false
      ∧ (exchangeOf i = none → t.phase = .idle ∧ t.resValid = true)
      ∧ (exchangeOf i ≠ none → t.phase = .tx ∧ t.resValid = false)

/-! ## The one-step operations -/

/-- `CSUM` (40_checksum.md R106): the checksum of the data in the acceptance step, whatever the data, with nothing else
changed but `op`, the result and its flag. -/
def Obligations.CsumGivesTheChecksum : Prop :=
  (∀ (data : List Byte) (s : State), s.fault = false → s.phase = .idle →
    ∃ a n, exec (.csum data) s = .next { s with
      todo := s.todo.tail, resValid := true, res := .checksum (xorAll data), op := 0x1, arg := a, draws := n })
  ∧ xorAll [] = 0x00
  ∧ (∀ b : Byte, xorAll [b] = b)
  ∧ (∀ data : List Byte, xorAll (data ++ [xorAll data]) = 0x00)
  ∧ xorAll [0x01, 0x03, 0x7F] = 0x7D

/-- `ENC_REQ` (41_frame_encoder.md R120, R121, R123): the request frame up to 65532 data bytes, Fault(DATA_TOO_LONG)
above. -/
def Obligations.EncReqGivesTheRequestFrame : Prop :=
  ∀ (cmd : Half) (data : List Byte) (s : State), s.fault = false → s.phase = .idle →
    (data.length ≤ 65532 →
      ∃ a n, exec (.encReq cmd data) s = .next { s with
        todo := s.todo.tail, resValid := true, op := 0x2
        res := .frame
          ([hi Config.framePrefix, lo Config.framePrefix,
            hi (BitVec.ofNat 16 (3 + data.length)), lo (BitVec.ofNat 16 (3 + data.length)), hi cmd, lo cmd]
            ++ data ++ [xorAll ([hi cmd, lo cmd] ++ data)])
        arg := a, draws := n })
    ∧ (65532 < data.length →
      exec (.encReq cmd data) s = .next { s with
        todo := s.todo.tail, fault := true, faultCode := .dataTooLong })

/-- `ENC_RSP` (41_frame_encoder.md R125, R126, R127): the response-shaped frame up to 65531 answer bytes,
Fault(DATA_TOO_LONG) above. -/
def Obligations.EncRspGivesTheResponseFrame : Prop :=
  ∀ (cmd : Half) (st : Byte) (answer : List Byte) (s : State), s.fault = false → s.phase = .idle →
    (answer.length ≤ 65531 →
      ∃ a n, exec (.encRsp cmd st answer) s = .next { s with
        todo := s.todo.tail, resValid := true, op := 0x3
        res := .frame
          ([hi Config.framePrefix, lo Config.framePrefix,
            hi (BitVec.ofNat 16 (4 + answer.length)), lo (BitVec.ofNat 16 (4 + answer.length)), hi cmd, lo cmd, st]
            ++ answer ++ [xorAll ([hi cmd, lo cmd, st] ++ answer)])
        arg := a, draws := n })
    ∧ (65531 < answer.length →
      exec (.encRsp cmd st answer) s = .next { s with
        todo := s.todo.tail, fault := true, faultCode := .dataTooLong })

/-- `DEC` (42_frame_parser.md R160): the parse of the bytes and the terminator always ends, and its outcome with the count
of bytes it consumed is the result, in the acceptance step. -/
def Obligations.DecGivesTheParseOfItsBytes : Prop :=
  ∀ (data : List Byte) (term : Term) (s : State), s.fault = false → s.phase = .idle →
    ∃ o k rest,
      parse (data.map .byte ++ [match term with | .eos => RxItem.eos | .err => RxItem.err]) = some (o, k, rest)
      ∧ ∃ a n, exec (.dec data term) s = .next { s with
          todo := s.todo.tail, resValid := true, op := 0x4
          res := (match o with
            | .ok c st answer => .decoded c st answer k
            | .error e => .error (errorRecord e k))
          arg := a, draws := n }

/-! ## Accepting the exchange operations -/

/-- `XCHG` (43_command_status.md R181, R182; 41_frame_encoder.md R120, R123): any command with up to 65532 data bytes is
sent verbatim; more data faults. -/
def Obligations.XchgIsAccepted : Prop :=
  ∀ (cmd : Half) (data : List Byte) (s : State), s.fault = false → s.phase = .idle →
    (data.length ≤ 65532 →
      ∃ a n, exec (.xchg cmd data) s = .next { s with
        todo := s.todo.tail, resValid := false, op := 0x5, cmd := cmd
        txbuf :=
          [hi Config.framePrefix, lo Config.framePrefix,
            hi (BitVec.ofNat 16 (3 + data.length)), lo (BitVec.ofNat 16 (3 + data.length)), hi cmd, lo cmd]
            ++ data ++ [xorAll ([hi cmd, lo cmd] ++ data)]
        txidx := 0, phase := .tx, arg := a, draws := n })
    ∧ (65532 < data.length →
      exec (.xchg cmd data) s = .next { s with
        todo := s.todo.tail, fault := true, faultCode := .dataTooLong })

/-- `INFO` sends the open command `CMD_INFO` with no data (43_command_status.md R181, R190). -/
def Obligations.InfoIsAccepted : Prop :=
  ∀ s : State, s.fault = false → s.phase = .idle →
    ∃ a n, exec .info s = .next { s with
      todo := s.todo.tail, resValid := false, op := 0x6, cmd := Config.cmdInfo
      txbuf := [0xAA, 0xDD, 0x00, 0x03, hi Config.cmdInfo, lo Config.cmdInfo, hi Config.cmdInfo ^^^ lo Config.cmdInfo]
      txidx := 0, phase := .tx, arg := a, draws := n }

/-- `BEEP` sends command 0x0103 with its unit count, 0 like any other, and keeps it in `arg` (43_command_status.md R181,
R193, R194). -/
def Obligations.BeepIsAccepted : Prop :=
  ∀ (units : Byte) (s : State), s.fault = false → s.phase = .idle →
    ∃ n, exec (.beep units) s = .next { s with
      todo := s.todo.tail, resValid := false, op := 0x7, cmd := 0x0103, arg := units
      txbuf := [0xAA, 0xDD, 0x00, 0x04, 0x01, 0x03, units, 0x02 ^^^ units]
      txidx := 0, phase := .tx, draws := n }

/-- `BEEP_NS` sends command 0x0103 with `BeepUnits(ns)` and keeps it in `arg` (43_command_status.md R181, R199, R200). -/
def Obligations.BeepNsIsAccepted : Prop :=
  ∀ (ns : BitVec 64) (s : State), s.fault = false → s.phase = .idle →
    ∃ n, exec (.beepNs ns) s = .next { s with
      todo := s.todo.tail, resValid := false, op := 0x8, cmd := 0x0103, arg := beepUnits ns
      txbuf := [0xAA, 0xDD, 0x00, 0x04, 0x01, 0x03, beepUnits ns, 0x02 ^^^ beepUnits ns]
      txidx := 0, phase := .tx, draws := n }

/-- `LED` sends the open command `CMD_LED` with a mode up to 0x02; a greater mode raises BAD_LED_MODE and sends nothing
(43_command_status.md R181, R203). -/
def Obligations.LedIsAcceptedUpToGreen : Prop :=
  ∀ (mode : Byte) (s : State), s.fault = false → s.phase = .idle →
    (mode.toNat ≤ 2 →
      ∃ n, exec (.led mode) s = .next { s with
        todo := s.todo.tail, resValid := false, op := 0x9, cmd := Config.cmdLed, arg := mode
        txbuf := [0xAA, 0xDD, 0x00, 0x04, hi Config.cmdLed, lo Config.cmdLed, mode,
          hi Config.cmdLed ^^^ lo Config.cmdLed ^^^ mode]
        txidx := 0, phase := .tx, draws := n })
    ∧ (2 < mode.toNat →
      exec (.led mode) s = .next { s with
        todo := s.todo.tail, fault := true, faultCode := .badLedMode })

/-- `READ_TAG` sends `AA DD 00 03 01 0C 0D` (43_command_status.md R181, R206). -/
def Obligations.ReadTagIsAccepted : Prop :=
  ∀ s : State, s.fault = false → s.phase = .idle →
    ∃ a n, exec .readTag s = .next { s with
      todo := s.todo.tail, resValid := false, op := 0xA, cmd := 0x010C
      txbuf := [0xAA, 0xDD, 0x00, 0x03, 0x01, 0x0C, 0x0D]
      txidx := 0, phase := .tx, arg := a, draws := n }

/-- Each wire command is accepted as the raw exchange of its code with any data up to 65532 bytes (30_encoding.md R77, R84;
43_command_status.md R181, R209; log entry 7). -/
def Obligations.WireCommandsAreAcceptedAsRawExchanges : Prop :=
  ∀ (i : Instr) (c : Half) (data : List Byte) (s : State),
    (i, c) ∈ [(Instr.cmdBeep data, 0x0103), (Instr.cmdRead data, 0x010C), (Instr.cmdInfo data, Config.cmdInfo),
      (Instr.cmdLed data, Config.cmdLed), (Instr.cmdWrite2 data, Config.cmdWrite2),
      (Instr.cmdWrite3 data, Config.cmdWrite3)] →
    s.fault = false → s.phase = .idle →
    (data.length ≤ 65532 →
      ∃ a n, exec i s = .next { s with
        todo := s.todo.tail, resValid := false, op := 0x5, cmd := c, txbuf := encodeReq c data
        txidx := 0, phase := .tx, arg := a, draws := n })
    ∧ (65532 < data.length →
      exec i s = .next { s with todo := s.todo.tail, fault := true, faultCode := .dataTooLong })

/-! ## The checksum -/

/-- Bit `k` of the checksum is the parity of bit `k` over the bytes, the order of the bytes does not matter, 0x00 is the
identity and every byte its own inverse (40_checksum.md R101); a body has a valid checksum exactly when its exclusive-or
is 0x00 (R102). -/
def Obligations.ChecksumIsBitwiseParityInAnyOrder : Prop :=
  (∀ (s : List Byte) (k : Nat), (xorAll s).getLsbD k = decide ((s.countP (fun b => b.getLsbD k)) % 2 = 1))
  ∧ (∀ s t : List Byte, s.Perm t → xorAll s = xorAll t)
  ∧ (∀ (b : Byte) (s : List Byte), xorAll (0x00 :: s) = xorAll s ∧ xorAll (b :: b :: s) = xorAll s)
  ∧ ∀ (covered : List Byte) (ck : Byte), xorAll covered = ck ↔ xorAll (covered ++ [ck]) = 0x00

/-- A body of a frame with an intact header and a valid checksum, with the bits of a mask `m` flipped: whenever some bit
position is flipped an odd number of times, as when one single bit is, its exclusive-or is no longer 0x00 and the frame
fails with an integrity error, consumed whole (40_checksum.md R107). -/
def Obligations.OddBitFlipsFailWithIntegrityError : Prop :=
  ∀ (l2 l3 : Byte) (r m : List Byte) (k : Nat) (rest : List RxItem),
    be16 l2 l3 = r.length → 4 ≤ r.length → xorAll r = 0x00 → m.length = r.length →
    m.countP (fun b => b.getLsbD k) % 2 = 1 →
    xorAll (List.zipWith (· ^^^ ·) r m) ≠ 0x00
    ∧ ∃ a b, a ≠ b
      ∧ parse (([hi Config.framePrefix, lo Config.framePrefix, l2, l3] ++ List.zipWith (· ^^^ ·) r m).map .byte ++ rest)
        = some (.error (.integrity a b), 4 + r.length, rest)

/-! ## The frame encoder -/

/-- The layouts of a request frame and of a response frame, field by field (30_encoding.md R70, R71, R72). -/
def Obligations.FrameLayouts : Prop :=
  (∀ (c : Half) (d : List Byte), d.length ≤ 65532 →
    (encodeReq c d).length = 7 + d.length
    ∧ byteAt (encodeReq c d) 0 = 0xAA ∧ byteAt (encodeReq c d) 1 = 0xDD
    ∧ be16 (byteAt (encodeReq c d) 2) (byteAt (encodeReq c d) 3) = 3 + d.length
    ∧ be16 (byteAt (encodeReq c d) 4) (byteAt (encodeReq c d) 5) = c.toNat
    ∧ slice (encodeReq c d) 6 (6 + d.length) = d
    ∧ byteAt (encodeReq c d) (6 + d.length) = xorAll (slice (encodeReq c d) 4 (6 + d.length)))
  ∧ (∀ (c : Half) (st : Byte) (a : List Byte), a.length ≤ 65531 →
    (encodeRsp c st a).length = 8 + a.length
    ∧ byteAt (encodeRsp c st a) 0 = 0xAA ∧ byteAt (encodeRsp c st a) 1 = 0xDD
    ∧ be16 (byteAt (encodeRsp c st a) 2) (byteAt (encodeRsp c st a) 3) = 4 + a.length
    ∧ be16 (byteAt (encodeRsp c st a) 4) (byteAt (encodeRsp c st a) 5) = c.toNat
    ∧ byteAt (encodeRsp c st a) 6 = st
    ∧ slice (encodeRsp c st a) 7 (7 + a.length) = a
    ∧ byteAt (encodeRsp c st a) (7 + a.length) = xorAll (slice (encodeRsp c st a) 4 (7 + a.length)))

/-- Every frame the encoder produces has a valid checksum and a length field equal to its byte count minus 4
(41_frame_encoder.md R129). -/
def Obligations.EncodedFramesAreValid : Prop :=
  (∀ (c : Half) (d : List Byte), d.length ≤ 65532 → ValidFrame (encodeReq c d))
  ∧ (∀ (c : Half) (st : Byte) (a : List Byte), a.length ≤ 65531 → ValidFrame (encodeRsp c st a))

/-! ## The frame parser -/

/-- Fewer than 4 header bytes before the stream ends or fails: SHORT_HEADER with their number and what ended them; the
ending item is consumed, and no byte counts but those received (42_frame_parser.md R142). -/
def Obligations.ShortHeaderIsAFramingError : Prop :=
  ∀ (h : List Byte) (rest : List RxItem), h.length < 4 →
    parse (h.map .byte ++ .eos :: rest) = some (.error (.shortHeader h.length .eos), h.length, rest)
    ∧ parse (h.map .byte ++ .err :: rest) = some (.error (.shortHeader h.length .err), h.length, rest)

/-- A wrong prefix: BAD_PREFIX with the two received bytes, whatever the length says; no byte of the body is read. With fewer
than 4 header bytes the prefix is not looked at (42_frame_parser.md R143, R162). -/
def Obligations.WrongPrefixIsAFramingError : Prop :=
  (∀ (b0 b1 b2 b3 : Byte) (rest : List RxItem), b0 ≠ hi Config.framePrefix ∨ b1 ≠ lo Config.framePrefix →
    parse ([b0, b1, b2, b3].map .byte ++ rest) = some (.error (.badPrefix b0 b1), 4, rest))
  ∧ ∀ (b0 b1 : Byte) (rest : List RxItem), b0 ≠ hi Config.framePrefix ∨ b1 ≠ lo Config.framePrefix →
    parse ([b0, b1].map .byte ++ .eos :: rest) = some (.error (.shortHeader 2 .eos), 2, rest)

/-- A good prefix and a declared length below 4: BAD_LENGTH with the length; no byte of the body is read. Every length from
4 on is accepted: no parse that goes on ends in a framing error (42_frame_parser.md R144). -/
def Obligations.DeclaredLengthBelowFourIsAFramingError : Prop :=
  ∀ (b2 b3 : Byte) (rest : List RxItem),
    (be16 b2 b3 < 4 →
      parse ([hi Config.framePrefix, lo Config.framePrefix, b2, b3].map .byte ++ rest)
        = some (.error (.badLength (be16 b2 b3)), 4, rest))
    ∧ (4 ≤ be16 b2 b3 → ∀ (o : ParseOut) (k : Nat) (left : List RxItem),
      parse ([hi Config.framePrefix, lo Config.framePrefix, b2, b3].map .byte ++ rest) = some (o, k, left) →
      (∀ n t, o ≠ .error (.shortHeader n t)) ∧ (∀ a b, o ≠ .error (.badPrefix a b)) ∧ ∀ n, o ≠ .error (.badLength n))

/-- Exactly the declared number of body bytes is read, whatever they are; a stream that ends or fails before is a
receive-phase transport error with the number of body bytes received (42_frame_parser.md R145). -/
def Obligations.BodyIsReadWholeOrIsATransportError : Prop :=
  ∀ (b2 b3 : Byte) (r : List Byte) (rest : List RxItem), 4 ≤ be16 b2 b3 →
    (r.length = be16 b2 b3 →
      ∃ o, parse ([hi Config.framePrefix, lo Config.framePrefix, b2, b3].map .byte ++ r.map .byte ++ rest)
        = some (o, 4 + r.length, rest))
    ∧ (r.length < be16 b2 b3 →
      parse ([hi Config.framePrefix, lo Config.framePrefix, b2, b3].map .byte ++ r.map .byte ++ .eos :: rest)
        = some (.error (.readEos r.length), 4 + r.length, rest)
      ∧ parse ([hi Config.framePrefix, lo Config.framePrefix, b2, b3].map .byte ++ r.map .byte ++ .err :: rest)
        = some (.error (.readErr r.length), 4 + r.length, rest))

/-- A whole body of covered bytes `[c1, c0, st] ++ answer` and a checksum byte: the fields by position on a match, an
integrity error with the computed and the received byte on a mismatch (42_frame_parser.md R146, R147). -/
def Obligations.WholeBodyIsCheckedAndSplitIntoFields : Prop :=
  ∀ (b2 b3 c1 c0 st ck : Byte) (answer : List Byte) (rest : List RxItem), be16 b2 b3 = 4 + answer.length →
    (xorAll ([c1, c0, st] ++ answer) = ck →
      parse (([hi Config.framePrefix, lo Config.framePrefix, b2, b3, c1, c0, st] ++ answer ++ [ck]).map .byte ++ rest)
        = some (.ok (BitVec.ofNat 16 (be16 c1 c0)) st answer, 8 + answer.length, rest))
    ∧ (xorAll ([c1, c0, st] ++ answer) ≠ ck →
      parse (([hi Config.framePrefix, lo Config.framePrefix, b2, b3, c1, c0, st] ++ answer ++ [ck]).map .byte ++ rest)
        = some (.error (.integrity (xorAll ([c1, c0, st] ++ answer)) ck), 8 + answer.length, rest))

/-- The parser consumes the items it reads and no more: a front part of the stream, `k` bytes of it, and the ending item
after them when one ended a short read; every later item stays (42_frame_parser.md R148). -/
def Obligations.ParserConsumesExactlyWhatItReads : Prop :=
  ∀ (items rest : List RxItem) (o : ParseOut) (k : Nat), parse items = some (o, k, rest) →
    ∃ bs : List Byte, bs.length = k ∧
      match o with
      | .ok _ _ _ => items = bs.map .byte ++ rest ∧ k = 4 + be16 (byteAt bs 2) (byteAt bs 3)
      | .error (.integrity _ _) => items = bs.map .byte ++ rest ∧ k = 4 + be16 (byteAt bs 2) (byteAt bs 3)
      | .error (.badPrefix _ _) => items = bs.map .byte ++ rest ∧ k = 4
      | .error (.badLength _) => items = bs.map .byte ++ rest ∧ k = 4
      | .error (.shortHeader n t) => items = bs.map .byte ++ termItem t :: rest ∧ k = n ∧ n < 4
      | .error (.readEos n) => items = bs.map .byte ++ .eos :: rest ∧ k = 4 + n
      | .error (.readErr n) => items = bs.map .byte ++ .err :: rest ∧ k = 4 + n
      | .error (.writeRejected _) => False
      | .error (.status _) => False

/-- Round trip: the parser recovers command, status and answer of a response-shaped frame and consumes exactly the frame
(41_frame_encoder.md R128). -/
def Obligations.ParserInvertsResponseEncoder : Prop :=
  ∀ (c : Half) (st : Byte) (a : List Byte) (rest : List RxItem), a.length ≤ 65531 →
    parse ((encodeRsp c st a).map .byte ++ rest) = some (.ok c st a, 8 + a.length, rest)

/-- `DEC` ends with a framing error, without a fault, in exactly three cases: fewer than 4 bytes, a wrong prefix, a declared
length below 4 (42_frame_parser.md R161). -/
def Obligations.DecFramingErrorsAreExactlyThreeCases : Prop :=
  ∀ (data : List Byte) (term : Term) (s : State), s.fault = false → s.phase = .idle →
    ∃ t, exec (.dec data term) s = .next t ∧ t.fault = false ∧ t.resValid = true
      ∧ ((∃ e : ErrorRec, t.res = .error e ∧ e.cls = 2) ↔
        data.length < 4
          ∨ byteAt data 0 ≠ hi Config.framePrefix ∨ byteAt data 1 ≠ lo Config.framePrefix
          ∨ be16 (byteAt data 2) (byteAt data 3) < 4)

/-! ## The steps of an exchange -/

/-- An acknowledged byte leaves in order; after the last one the block turns to the response (43_command_status.md R183,
20_memory.md R63). -/
def Obligations.AcknowledgedByteAdvancesTheTransmitter : Prop :=
  ∀ (s : State) (b : Byte) (ans : List TxAnswer), s.fault = false → s.phase = .tx →
    s.txbuf[s.txidx]? = some b → s.txAns = .ack :: ans →
    blockStep s = .next
      (if s.txidx + 1 = s.txbuf.length then
        { s with txAns := ans, sent := s.sent ++ [b], txidx := s.txidx + 1, phase := .rxHdr, hcnt := 0 }
      else { s with txAns := ans, sent := s.sent ++ [b], txidx := s.txidx + 1 })

/-- A rejected byte ends the exchange with a send error that tells how many bytes were accepted; they stay sent, and the
receive stream is not read (43_command_status.md R184, 20_memory.md R59, 60_exceptions.md R232). -/
def Obligations.RejectedByteEndsTheExchange : Prop :=
  ∀ (s : State) (ans : List TxAnswer), s.fault = false → s.phase = .tx → s.txidx < s.txbuf.length →
    s.txAns = .err :: ans →
    blockStep s = .next { s with
      txAns := ans, phase := .idle, resValid := true
      res := .error { cls := 1, ph := 1, det := 1, a := 0, b := 0, n := s.txidx, term := 0, consumed := 0 } }

/-- The RX_HDR step, item by item: a byte is stored at its index, and the fourth is checked in the same step, prefix before
length, and opens the body if both are good; an end or a failure of the stream is a framing error (42_frame_parser.md
R150, R151). -/
def Obligations.HeaderStepFollowsTheItem : Prop :=
  ∀ (s : State) (items : List RxItem), s.fault = false → s.phase = .rxHdr →
    (∀ b, s.hcnt < 3 → s.rx = .byte b :: items → blockStep s = .next { s with
      rx := items, hbuf := setHeaderByte s.hbuf s.hcnt b, hcnt := s.hcnt + 1 })
    ∧ (∀ b, s.hcnt = 3 → s.rx = .byte b :: items → blockStep s = .next
      (if s.hbuf.b0 ≠ hi Config.framePrefix ∨ s.hbuf.b1 ≠ lo Config.framePrefix then
        { s with
          rx := items, hbuf := { s.hbuf with b3 := b }, hcnt := 4, phase := .idle, resValid := true
          res := .error (errorRecord (.badPrefix s.hbuf.b0 s.hbuf.b1) 4) }
      else if be16 s.hbuf.b2 b < 4 then
        { s with
          rx := items, hbuf := { s.hbuf with b3 := b }, hcnt := 4, phase := .idle, resValid := true
          res := .error (errorRecord (.badLength (be16 s.hbuf.b2 b)) 4) }
      else
        { s with
          rx := items, hbuf := { s.hbuf with b3 := b }, hcnt := 4
          rlen := be16 s.hbuf.b2 b, bcnt := 0, xacc := 0x00, rbuf := [], phase := .rxBody }))
    ∧ (s.hcnt < 4 → s.rx = .eos :: items → blockStep s = .next { s with
      rx := items, phase := .idle, resValid := true, res := .error (errorRecord (.shortHeader s.hcnt .eos) s.hcnt) })
    ∧ (s.hcnt < 4 → s.rx = .err :: items → blockStep s = .next { s with
      rx := items, phase := .idle, resValid := true, res := .error (errorRecord (.shortHeader s.hcnt .err) s.hcnt) })

/-- The RX_BODY step, item by item: a byte before the last is stored and folded into `xacc` (40_checksum.md R104); the last is
compared with `xacc`, which stays, and completes the exchange by the operation's interpretation or with an integrity error;
an end or a failure of the stream is a transport error (42_frame_parser.md R152, R153). -/
def Obligations.BodyStepFollowsTheItem : Prop :=
  ∀ (s : State) (items : List RxItem), s.fault = false → s.phase = .rxBody →
    (∀ b, s.rx = .byte b :: items → s.bcnt + 1 < s.rlen → blockStep s = .next { s with
      rx := items, rbuf := s.rbuf ++ [b], bcnt := s.bcnt + 1, xacc := s.xacc ^^^ b })
    ∧ (∀ b, s.rx = .byte b :: items → s.bcnt + 1 = s.rlen → s.xacc ≠ b → blockStep s = .next { s with
      rx := items, rbuf := s.rbuf ++ [b], bcnt := s.bcnt + 1, phase := .idle, resValid := true
      res := .error (errorRecord (.integrity s.xacc b) (4 + s.rlen)) })
    ∧ (∀ b, s.rx = .byte b :: items → s.bcnt + 1 = s.rlen → s.xacc = b → ∀ r : Result,
      interpret s.op (byteAt (s.rbuf ++ [b]) 2) (slice (s.rbuf ++ [b]) 3 (s.rlen - 1)) (4 + s.rlen) = some r →
      blockStep s = .next { s with
        rx := items, rbuf := s.rbuf ++ [b], bcnt := s.bcnt + 1, phase := .idle, resValid := true, res := r })
    ∧ (s.bcnt < s.rlen → s.rx = .eos :: items → blockStep s = .next { s with
      rx := items, phase := .idle, resValid := true, res := .error (errorRecord (.readEos s.bcnt) (4 + s.bcnt)) })
    ∧ (s.bcnt < s.rlen → s.rx = .err :: items → blockStep s = .next { s with
      rx := items, phase := .idle, resValid := true, res := .error (errorRecord (.readErr s.bcnt) (4 + s.bcnt)) })

/-- Where the rules give the block no step it stays as it is, and so does everything around it: faulted (60_exceptions.md
R238), idle (70_reset_and_hazards.md R262), offering a byte that the transmit side does not answer (20_memory.md R51), or
waiting for an item that the receive side does not offer (20_memory.md R52, 42_frame_parser.md R149). That waiting is a step
which changes nothing is the model's form (log entry 5, DESIGN CHOICE). -/
def Obligations.WaitingChangesNothing : Prop :=
  ∀ s : State,
    (s.fault = true → blockStep s = .next s)
    ∧ (s.phase = .idle → blockStep s = .next s)
    ∧ (s.phase = .tx → s.txidx < s.txbuf.length → s.txAns = [] → blockStep s = .next s)
    ∧ (s.phase = .rxHdr → s.hcnt < 4 → s.rx = [] → blockStep s = .next s)
    ∧ (s.phase = .rxBody → s.bcnt < s.rlen → s.rx = [] → blockStep s = .next s)

/-- The interpretation of a status, row by row (43_command_status.md R187), with the protocol-status error's record
(60_exceptions.md R231, R234). That this record holds the response's byte count in `consumed` is the model's reading (log
entry 15, DEDUCED). -/
def Obligations.StatusIsInterpretedByTheTable : Prop :=
  ∀ (st : Byte) (a : List Byte) (k : Nat),
    interpret 0x5 st a k = some (.exchanged st a)
    ∧ interpret 0x6 0x00 a k = some (.infoText a)
    ∧ interpret 0x7 0x00 a k = some .done ∧ interpret 0x8 0x00 a k = some .done ∧ interpret 0x9 0x00 a k = some .done
    ∧ interpret 0xA 0x00 a k = some (.tag a) ∧ interpret 0xA 0x01 a k = some .noTag
    ∧ (st ≠ 0x00 → ∀ op ∈ ([0x6, 0x7, 0x8, 0x9] : List (BitVec 4)), interpret op st a k = some (.error
        { cls := 4, ph := 4, det := 0, a := st, b := 0, n := 0, term := 0, consumed := k }))
    ∧ (st ≠ 0x00 → st ≠ 0x01 → interpret 0xA st a k = some (.error
        { cls := 4, ph := 4, det := 0, a := st, b := 0, n := 0, term := 0, consumed := k }))

/-- The error records of the send, receive, framing and integrity errors (60_exceptions.md R231, R232, R233, R235). -/
def Obligations.ErrorRecordsHoldTheirFields : Prop :=
  ∀ (n k : Nat) (a b : Byte),
    errorRecord (.writeRejected n) k = ⟨1, 1, 1, 0, 0, n, 0, k⟩
    ∧ errorRecord (.readEos n) k = ⟨1, 2, 2, 0, 0, n, 1, k⟩
    ∧ errorRecord (.readErr n) k = ⟨1, 2, 3, 0, 0, n, 2, k⟩
    ∧ errorRecord (.shortHeader n .eos) k = ⟨2, 3, 1, 0, 0, n, 1, k⟩
    ∧ errorRecord (.shortHeader n .err) k = ⟨2, 3, 1, 0, 0, n, 2, k⟩
    ∧ errorRecord (.badPrefix a b) k = ⟨2, 3, 2, a, b, 0, 0, k⟩
    ∧ errorRecord (.badLength n) k = ⟨2, 3, 3, 0, 0, n, 0, k⟩
    ∧ errorRecord (.integrity a b) k = ⟨3, 3, 0, a, b, 0, 0, k⟩

/-- The sequencer computes `Parse`, one step per item (42_frame_parser.md R154): from the entry to RX_HDR, with the host
doing nothing, it consumes the same items and ends with the result that `Complete` makes of `Parse`'s outcome and count
(43_command_status.md R185); the command that `Complete` drops is still in the body it received. -/
def Obligations.SequencerComputesParse : Prop :=
  ∀ (s : State) (o : ParseOut) (k : Nat) (rest : List RxItem),
    s.fault = false → s.phase = .rxHdr → s.hcnt = 0 → s.todo = [] → exchangeCode s.op = true →
    parse s.rx = some (o, k, rest) →
    ∃ t, Host.Core.run core (s.rx.length - rest.length) s = .next t
      ∧ t.phase = .idle ∧ t.resValid = true ∧ t.rx = rest ∧ t.sent = s.sent ∧ t.txAns = s.txAns ∧ t.fault = false
      ∧ some t.res = (match o with
        | .error e => some (.error (errorRecord e k))
        | .ok _ st a => interpret s.op st a k)
      ∧ ∀ c st a, o = .ok c st a → joinHalf (byteAt t.rbuf 0) (byteAt t.rbuf 1) = c

/-- The sequencer has no timeout: when the stream runs out before `Parse` has an outcome, the exchange has consumed every
item, has no result, and stays busy for as many further steps as one likes (42_frame_parser.md R149, R155). -/
def Obligations.SequencerWaitsWhileTheStreamOffersNothing : Prop :=
  ∀ (s : State) (n : Nat),
    s.fault = false → s.phase = .rxHdr → s.hcnt = 0 → s.todo = [] → s.resValid = false → parse s.rx = none →
    ∃ t, Host.Core.run core (s.rx.length + n) s = .next t
      ∧ (t.phase = .rxHdr ∨ t.phase = .rxBody) ∧ t.rx = [] ∧ t.resValid = false ∧ t.fault = false

/-- One whole round trip of any exchange operation (43_command_status.md R180, R182, R185): accepted, sent byte by byte,
one response parsed, one interpretation; exactly the frame is sent, exactly the parsed items are consumed, and the host's
script holds nothing else to do. That the six wire commands are among these operations, as raw exchanges, is the model's
choice (log entry 7, DESIGN CHOICE). -/
def Obligations.ExchangeIsOneRoundTrip : Prop :=
  ∀ (s : State) (r : Request) (code : BitVec 4) (c : Half) (d : List Byte) (ans : List TxAnswer)
    (o : ParseOut) (k : Nat) (rest : List RxItem),
    exchangeOf (decode r) = some (code, c, d) → operandFault (decode r) = none →
    s.fault = false → s.phase = .idle → s.todo = [.present r] →
    s.txAns = List.replicate (7 + d.length) .ack ++ ans → parse s.rx = some (o, k, rest) →
    ∃ t, Host.Core.run core (1 + (7 + d.length) + (s.rx.length - rest.length)) s = .next t
      ∧ t.phase = .idle ∧ t.resValid = true ∧ t.fault = false
      ∧ t.sent = s.sent ++ encodeReq c d ∧ t.txAns = ans ∧ t.rx = rest
      ∧ some t.res = (match o with
        | .error e => some (.error (errorRecord e k))
        | .ok _ st a => interpret code st a k)

/-- `READ_TAG` answers a well-formed response by its status alone, whatever command it carries: the answer bytes as the
tag on 0x00, of any length, the no-tag outcome on 0x01, a status error with the raw status otherwise (43_command_status.md
R186, R206, R207). That the status error holds the response's byte count in `consumed` is the model's reading (log entry 15,
DEDUCED). -/
def Obligations.ReadTagReturnsTagOrNoTag : Prop :=
  ∀ (s : State) (c : Half) (st : Byte) (a : List Byte) (rest : List RxItem), a.length ≤ 65531 →
    s.fault = false → s.phase = .idle → s.todo = [.present (encode .readTag)] →
    s.txAns = List.replicate 7 .ack → s.rx = (encodeRsp c st a).map .byte ++ rest →
    ∃ t, Host.Core.run core (16 + a.length) s = .next t
      ∧ t.phase = .idle ∧ t.resValid = true ∧ t.rx = rest
      ∧ t.sent = s.sent ++ [0xAA, 0xDD, 0x00, 0x03, 0x01, 0x0C, 0x0D]
      ∧ t.res = (if st = 0x00 then .tag a else if st = 0x01 then .noTag
          else .error { cls := 4, ph := 4, det := 0, a := st, b := 0, n := 0, term := 0, consumed := 8 + a.length })

/-! ## The beep unit conversion -/

/-- `BeepUnits(ns)`: rounded, bumped, clamped (43_command_status.md R199). -/
def Obligations.BeepUnitsAreRoundedBumpedAndClamped : Prop :=
  ∀ ns : BitVec 64, (beepUnits ns).toNat =
    (let q := (510 * ns.toNat + 1000000000) / 2000000000
     if 0 < ns.toNat ∧ q = 0 then 1 else if q > 255 then 255 else q)

/-- Zero only for zero, 1 below one unit, 255 from a second on (43_command_status.md R198, R200, R201); between the bump
and a second, never more than half a unit away from the duration (R196, R197: 510 * ns within 10^9 of 2 * 10^9 times the
count); and never fewer units for a longer duration. -/
def Obligations.BeepUnitsMeetTheTestProperty : Prop :=
  (∀ ns : BitVec 64, (beepUnits ns = 0 ↔ ns = 0)
    ∧ (1 ≤ ns.toNat → ns.toNat ≤ 3921568 → beepUnits ns = 1)
    ∧ (roundedUnits ns.toNat = 0 ↔ ns.toNat ≤ 1960784)
    ∧ (1000000000 ≤ ns.toNat → beepUnits ns = 255)
    ∧ (1960785 ≤ ns.toNat → ns.toNat ≤ 1000000000 →
      510 * ns.toNat ≤ 2000000000 * (beepUnits ns).toNat + 1000000000
      ∧ 2000000000 * (beepUnits ns).toNat ≤ 510 * ns.toNat + 1000000000))
  ∧ (∀ ns ns' : BitVec 64, ns.toNat ≤ ns'.toNat → (beepUnits ns).toNat ≤ (beepUnits ns').toNat)
  ∧ roundedUnits 1176470588 = 300 ∧ beepUnits 1176470588 = 255

/-! ## STATUS and the host's ports -/

/-- Every bit of STATUS, reserved bits 3 and 7 reading 0 (10_state.md R33), with the numbers that the tables of R22, R30 and
60_exceptions.md R239 give to phases, result kinds and fault causes; and reading it changes nothing else. -/
def Obligations.StatusReadGivesEveryField : Prop :=
  ∀ (s : State) (rest : List HostLine), s.todo = .readStatus :: rest →
    ∃ w : Half, step s = .next { s with todo := rest, reads := .status w :: s.reads }
      ∧ (w.extractLsb' 0 1 = 1 ↔ s.phase ≠ .idle)
      ∧ w.extractLsb' 1 1 = BitVec.ofBool s.resValid
      ∧ w.extractLsb' 2 1 = BitVec.ofBool s.fault
      ∧ w.extractLsb' 3 1 = 0
      ∧ w.extractLsb' 4 3 = (match s.phase with | .idle => 0 | .tx => 1 | .rxHdr => 2 | .rxBody => 3)
      ∧ w.extractLsb' 7 1 = 0
      ∧ w.extractLsb' 8 4 = (match s.faultCode with
          | .none => 0 | .illegalOp => 1 | .hostOverlap => 2 | .dataTooLong => 3 | .badLedMode => 4 | .noResult => 5)
      ∧ w.extractLsb' 12 4 = (if s.resValid then
          (match s.res with
          | .empty => 0 | .decoded .. => 1 | .frame _ => 2 | .checksum _ => 3 | .exchanged .. => 4 | .infoText _ => 5
          | .done => 6 | .tag _ => 7 | .noTag => 8 | .error _ => 9)
        else 0)

/-- Reading the result port gives the result and keeps it when there is one; with none it raises NO_RESULT, which keeps
the code of an earlier fault (10_state.md R34; 60_exceptions.md R238, R239). -/
def Obligations.ResultReadNeedsAResult : Prop :=
  ∀ (s : State) (rest : List HostLine), s.todo = .readResult :: rest →
    (s.resValid = true → step s = .next { s with todo := rest, reads := .result s.res :: s.reads })
    ∧ (s.resValid = false → s.fault = false →
      step s = .next { s with todo := rest, fault := true, faultCode := .noResult })
    ∧ (s.resValid = false → s.fault = true → step s = .next { s with todo := rest })

/-- A host script (30_encoding.md R88). Its wait after a request stops at a fault, reads the result once there is one, and
until then lets the block step. Its control lines touch the script alone: a label is passed, `goto` goes to the line after
its label, `if KIND goto` does so when the last result read has that variant, whatever STATUS was read since, and is passed
otherwise. An idle line is used up by a step of the block, and a host with no line left lets the block step. The lines and
the idle line are the model's form (log entries 4 and 11, DESIGN CHOICE), and so are a jump to a label the script does not
hold and an `if` line before any result (log entry 11). -/
def Obligations.ScriptLinesWaitAndMove : Prop :=
  (∀ (s : State) (rest : List HostLine), s.todo = .await :: rest →
    (s.fault = true → step s = .next s)
    ∧ (s.fault = false → s.resValid = true →
      step s = .next { s with todo := rest, reads := .result s.res :: s.reads })
    ∧ (s.fault = false → s.resValid = false → step s = blockStep s))
  ∧ (∀ (s : State) (name : Nat) (rest : List HostLine),
    (s.todo = [] → step s = blockStep s)
    ∧ (s.todo = .idle :: rest → step s = blockStep { s with todo := rest })
    ∧ (s.todo = .halt :: rest → step s = blockStep s)
    ∧ (s.todo = .label name :: rest → step s = .next { s with todo := rest })
    ∧ (HostLine.label name ∉ s.script → s.todo = .goto name :: rest → step s = .fault .noSuchLabel)
    ∧ (∀ before after : List HostLine, s.script = before ++ .label name :: after → HostLine.label name ∉ before →
      s.todo = .goto name :: rest → step s = .next { s with todo := after }))
  ∧ ∀ (s : State) (kind : Kind) (name : Nat) (rest : List HostLine) (seen : List Half),
    s.todo = .ifKind kind name :: rest →
    (s.reads = seen.map .status → step s = .next { s with todo := rest })
    ∧ ∀ (r : Result) (reads : List HostRead), s.reads = seen.map .status ++ .result r :: reads →
      (kindOf r ≠ kind → step s = .next { s with todo := rest })
      ∧ (kindOf r = kind → HostLine.label name ∉ s.script → step s = .fault .noSuchLabel)
      ∧ (kindOf r = kind → ∀ before after : List HostLine,
        s.script = before ++ .label name :: after → HostLine.label name ∉ before →
        step s = .next { s with todo := after })

/-! ## The whole machine -/

/-- A faulted block has no step of any kind until reset: whatever the host does but reset, its sixteen registers and both
streams stay as they are (60_exceptions.md R238, R243). -/
def Obligations.FaultedBlockTakesNoStep : Prop :=
  ∀ s t : State, s.fault = true → s.todo.head? ≠ some .reset → step s = .next t →
    t.registers = s.registers ∧ t.rx = s.rx ∧ t.txAns = s.txAns ∧ t.sent = s.sent

/-- The receive stream is read only in RX_HDR and RX_BODY and the transmit stream written only in TX (20_memory.md R53); a
step moves at most one byte and never both ways (R58, R64); a byte once sent stays sent (R59). -/
def Obligations.StreamsMoveOneItemInTheirPhase : Prop :=
  ∀ s t : State, step s = .next t →
    (t.rx = s.rx ∨ (s.phase = .rxHdr ∨ s.phase = .rxBody) ∧ (∃ item, s.rx = item :: t.rx)
      ∧ t.sent = s.sent ∧ t.txAns = s.txAns)
    ∧ (t.sent = s.sent ∨ s.phase = .tx ∧ (∃ b, s.txbuf[s.txidx]? = some b ∧ t.sent = s.sent ++ [b]) ∧ t.rx = s.rx)
    ∧ (t.txAns = s.txAns ∨ s.phase = .tx ∧ ∃ a, s.txAns = a :: t.txAns)

/-- The phases change only along IDLE, TX, RX_HDR, RX_BODY, IDLE, or back to IDLE (10_state.md R41, R42, R43); a step that
ends an operation leaves a valid result, but for reset. -/
def Obligations.PhasesChangeOnlyAsTheRulesSay : Prop :=
  ∀ s t : State, s.fault = false → s.todo.head? ≠ some .reset → step s = .next t → t.phase ≠ s.phase →
    (s.phase = .idle ∧ t.phase = .tx ∧ ∃ r, s.todo.head? = some (.present r))
    ∨ (s.phase = .tx ∧ t.phase = .rxHdr ∧ t.sent = s.sent ++ [byteAt s.txbuf s.txidx] ∧ t.txidx = s.txbuf.length)
    ∨ (s.phase = .rxHdr ∧ t.phase = .rxBody ∧ t.hcnt = 4)
    ∨ (s.phase ≠ .idle ∧ t.phase = .idle ∧ t.resValid = true)

/-- The sticky fault and the result flag change only where 10_state.md R26 says: the fault is set by a request or a read of
an empty result and cleared by reset; the flag is set by a completion, of the exchange in flight or of a one-step operation in
the step that accepts it (R31), and cleared by an acceptance or reset. -/
def Obligations.FlagsChangeOnlyWhereTheRulesSay : Prop :=
  ∀ s t : State, step s = .next t →
    (t.fault ≠ s.fault →
      (t.fault = true ∧ ((∃ r, s.todo.head? = some (.present r)) ∨ s.todo.head? = some .readResult))
        ∨ (t.fault = false ∧ s.todo.head? = some .reset))
    ∧ (t.fault = true → s.fault = true → t.faultCode = s.faultCode)
    ∧ (t.resValid = true → s.resValid = false → s.fault = false ∧ t.phase = .idle
      ∧ (s.phase ≠ .idle ∨ ∃ r, s.todo.head? = some (.present r)))
    ∧ (t.resValid = false → s.resValid = true → (∃ r, s.todo.head? = some (.present r) ∧ t.phase = .tx)
        ∨ s.todo.head? = some .reset)

/-- The machine's invariant holds after reset. -/
def Obligations.InvariantHoldsAtReset : Prop := State.reset.Inv

/-- Every step keeps the invariant: the registers in their widths (10_state.md R21, 00_scope.md R8), the sequencer where
the rules give a step (10_state.md R25), `xacc` the checksum of the body so far (40_checksum.md R105), a whole valid frame
going out in order before any item is read (20_memory.md R63, R64; 41_frame_encoder.md R129), a fault with its cause. -/
def Obligations.StepKeepsInvariant : Prop :=
  ∀ s t : State, s.Inv → step s = .next t → t.Inv

/-- From a state of the invariant the machine always goes on: no step is refused, and none stops but a host line that jumps
to a label its script does not hold. -/
def Obligations.InvariantStatesNeverStop : Prop :=
  ∀ s : State, s.Inv → (∃ t, step s = .next t) ∨ step s = .fault .noSuchLabel

/-- No rule reads a register that holds no value (10_state.md R23, 43_command_status.md R189): two states that differ only
in such registers step alike, for ever after. -/
def Obligations.RegistersWithoutValueAreNeverRead : Prop :=
  ∀ s t : State, s.Agree t → outcomesAgree (step s) (step t)
end

