-- ==== Sys2Proof/Laws/Bytes.lean ====
section
/-! SUPPORT. Bytes and sequences: the exclusive-or fold, high and low bytes, indexing and slices (00_scope.md R8, R9). -/

namespace Sys2Proof.Machine

@[simp] theorem xorAll_nil : xorAll [] = 0 := rfl

@[simp] theorem xorAll_cons (b : Byte) (s : List Byte) : xorAll (b :: s) = b ^^^ xorAll s := rfl

/-- The fold of two pieces is the exclusive-or of their folds (40_checksum.md R101). -/
theorem xorAll_append (s t : List Byte) : xorAll (s ++ t) = xorAll s ^^^ xorAll t := by
  induction s with
  | nil => simp
  | cons b s ih => simp [ih, BitVec.xor_assoc]

/-- Two bytes are equal when their exclusive-or is 0x00. -/
theorem byte_xor_eq_zero (a b : Byte) : a ^^^ b = 0 ↔ a = b := BitVec.xor_eq_zero_iff

/-- Joining the two bytes of a field gives its value back (20_memory.md R54). -/
theorem be16_hi_lo (v : Half) : be16 (hi v) (lo v) = v.toNat := by
  have h := v.isLt
  simp only [be16, hi, lo, BitVec.extractLsb'_toNat, Nat.shiftRight_eq_div_pow]
  omega

/-- Joining the two bytes of a field gives the field back (30_encoding.md R82). -/
@[simp] theorem joinHalf_hi_lo (v : Half) : joinHalf (hi v) (lo v) = v := by
  simp [joinHalf, be16_hi_lo]

/-- Writing a number as two bytes and joining them gives the number back (20_memory.md R54). -/
theorem be16_ofNat {n : Nat} (h : n ≤ 65535) : be16 (hi (BitVec.ofNat 16 n)) (lo (BitVec.ofNat 16 n)) = n := by
  rw [be16_hi_lo, BitVec.toNat_ofNat]
  omega

/-- Two bytes join to at most the largest 16-bit value. -/
theorem be16_le (a b : Byte) : be16 a b ≤ 65535 := by
  have := a.isLt
  have := b.isLt
  simp only [be16]
  omega

@[simp] theorem byteAt_cons_zero (b : Byte) (s : List Byte) : byteAt (b :: s) 0 = b := rfl

@[simp] theorem byteAt_cons_succ (b : Byte) (s : List Byte) (i : Nat) : byteAt (b :: s) (i + 1) = byteAt s i := rfl

/-- The byte at an index is the one the index finds. -/
theorem byteAt_of_getElem? {s : List Byte} {i : Nat} {b : Byte} (h : s[i]? = some b) : byteAt s i = b := by
  simp [byteAt, List.getD, h]

theorem byteAt_append_right (s t : List Byte) (i : Nat) : byteAt (s ++ t) (s.length + i) = byteAt t i := by
  simp [byteAt, List.getD, List.getElem?_append_right]

theorem byteAt_append_left {s : List Byte} (t : List Byte) {i : Nat} (h : i < s.length) :
    byteAt (s ++ t) i = byteAt s i := by
  simp [byteAt, List.getD, List.getElem?_append_left h]

/-- The front of a sequence followed by one byte. -/
theorem slice_front (s : List Byte) (b : Byte) : slice (s ++ [b]) 0 s.length = s := by
  simp [slice]

/-- Flipping the bits of a mask changes the fold by the mask's fold (40_checksum.md R101). -/
theorem xorAll_zipWith {s m : List Byte} (h : m.length = s.length) :
    xorAll (List.zipWith (· ^^^ ·) s m) = xorAll s ^^^ xorAll m := by
  induction s generalizing m with
  | nil =>
    obtain rfl := List.length_eq_zero_iff.1 h
    rfl
  | cons b s ih =>
    cases m with
    | nil => simp at h
    | cons c m =>
      simp only [List.zipWith_cons_cons, xorAll_cons, ih (by simpa using h)]
      ac_rfl

/-- A request frame, byte by byte (41_frame_encoder.md R120). -/
theorem encodeReq_eq (c : Half) (d : List Byte) :
    encodeReq c d = [hi Config.framePrefix, lo Config.framePrefix,
      hi (BitVec.ofNat 16 (3 + d.length)), lo (BitVec.ofNat 16 (3 + d.length)), hi c, lo c]
      ++ d ++ [xorAll ([hi c, lo c] ++ d)] := by
  have h : d.length + 1 + 1 + 1 = 3 + d.length := by omega
  simp [encodeReq, frameOf, h]

/-- A response frame, byte by byte (41_frame_encoder.md R125). -/
theorem encodeRsp_eq (c : Half) (st : Byte) (a : List Byte) :
    encodeRsp c st a = [hi Config.framePrefix, lo Config.framePrefix,
      hi (BitVec.ofNat 16 (4 + a.length)), lo (BitVec.ofNat 16 (4 + a.length)), hi c, lo c, st]
      ++ a ++ [xorAll ([hi c, lo c, st] ++ a)] := by
  have h : a.length + 1 + 1 + 1 + 1 = 4 + a.length := by omega
  simp [encodeRsp, frameOf, h]

/-- A count that is bumped to 1 and clamped to 255 fits a byte (43_command_status.md R198). -/
theorem bumpedClamped_toNat (n q : Nat) :
    (BitVec.ofNat 8 (if 255 < (if 0 < n ∧ q = 0 then 1 else q) then 255
      else (if 0 < n ∧ q = 0 then 1 else q))).toNat
      = if 0 < n ∧ q = 0 then 1 else if q > 255 then 255 else q := by
  rw [BitVec.toNat_ofNat]
  split_ifs <;> omega

end Sys2Proof.Machine
end

