-- ==== Sys2Proof/Laws/State.lean ====
section
/-! SUPPORT. What each update of the state does to each field: one small lemma per field and update, so that no later
proof unfolds a record update. -/

namespace Sys2Proof.Machine

/-! ### nextLine -/

@[simp] theorem State.nextLine_phase (s : State) : (s.nextLine).phase = s.phase := rfl

@[simp] theorem State.nextLine_op (s : State) : (s.nextLine).op = s.op := rfl

@[simp] theorem State.nextLine_cmd (s : State) : (s.nextLine).cmd = s.cmd := rfl

@[simp] theorem State.nextLine_arg (s : State) : (s.nextLine).arg = s.arg := rfl

@[simp] theorem State.nextLine_txbuf (s : State) : (s.nextLine).txbuf = s.txbuf := rfl

@[simp] theorem State.nextLine_txidx (s : State) : (s.nextLine).txidx = s.txidx := rfl

@[simp] theorem State.nextLine_hbuf (s : State) : (s.nextLine).hbuf = s.hbuf := rfl

@[simp] theorem State.nextLine_hcnt (s : State) : (s.nextLine).hcnt = s.hcnt := rfl

@[simp] theorem State.nextLine_rlen (s : State) : (s.nextLine).rlen = s.rlen := rfl

@[simp] theorem State.nextLine_rbuf (s : State) : (s.nextLine).rbuf = s.rbuf := rfl

@[simp] theorem State.nextLine_bcnt (s : State) : (s.nextLine).bcnt = s.bcnt := rfl

@[simp] theorem State.nextLine_xacc (s : State) : (s.nextLine).xacc = s.xacc := rfl

@[simp] theorem State.nextLine_resValid (s : State) : (s.nextLine).resValid = s.resValid := rfl

@[simp] theorem State.nextLine_res (s : State) : (s.nextLine).res = s.res := rfl

@[simp] theorem State.nextLine_fault (s : State) : (s.nextLine).fault = s.fault := rfl

@[simp] theorem State.nextLine_faultCode (s : State) : (s.nextLine).faultCode = s.faultCode := rfl

@[simp] theorem State.nextLine_rx (s : State) : (s.nextLine).rx = s.rx := rfl

@[simp] theorem State.nextLine_txAns (s : State) : (s.nextLine).txAns = s.txAns := rfl

@[simp] theorem State.nextLine_sent (s : State) : (s.nextLine).sent = s.sent := rfl

@[simp] theorem State.nextLine_todo (s : State) : (s.nextLine).todo = s.todo.tail := rfl

@[simp] theorem State.nextLine_script (s : State) : (s.nextLine).script = s.script := rfl

@[simp] theorem State.nextLine_reads (s : State) : (s.nextLine).reads = s.reads := rfl

@[simp] theorem State.nextLine_draws (s : State) : (s.nextLine).draws = s.draws := rfl

/-! ### finish -/

@[simp] theorem State.finish_phase (s : State) (r : Result) : (s.finish r).phase = .idle := rfl

@[simp] theorem State.finish_op (s : State) (r : Result) : (s.finish r).op = s.op := rfl

@[simp] theorem State.finish_cmd (s : State) (r : Result) : (s.finish r).cmd = s.cmd := rfl

@[simp] theorem State.finish_arg (s : State) (r : Result) : (s.finish r).arg = s.arg := rfl

@[simp] theorem State.finish_txbuf (s : State) (r : Result) : (s.finish r).txbuf = s.txbuf := rfl

@[simp] theorem State.finish_txidx (s : State) (r : Result) : (s.finish r).txidx = s.txidx := rfl

@[simp] theorem State.finish_hbuf (s : State) (r : Result) : (s.finish r).hbuf = s.hbuf := rfl

@[simp] theorem State.finish_hcnt (s : State) (r : Result) : (s.finish r).hcnt = s.hcnt := rfl

@[simp] theorem State.finish_rlen (s : State) (r : Result) : (s.finish r).rlen = s.rlen := rfl

@[simp] theorem State.finish_rbuf (s : State) (r : Result) : (s.finish r).rbuf = s.rbuf := rfl

@[simp] theorem State.finish_bcnt (s : State) (r : Result) : (s.finish r).bcnt = s.bcnt := rfl

@[simp] theorem State.finish_xacc (s : State) (r : Result) : (s.finish r).xacc = s.xacc := rfl

@[simp] theorem State.finish_resValid (s : State) (r : Result) : (s.finish r).resValid = true := rfl

@[simp] theorem State.finish_res (s : State) (r : Result) : (s.finish r).res = r := rfl

@[simp] theorem State.finish_fault (s : State) (r : Result) : (s.finish r).fault = s.fault := rfl

@[simp] theorem State.finish_faultCode (s : State) (r : Result) : (s.finish r).faultCode = s.faultCode := rfl

@[simp] theorem State.finish_rx (s : State) (r : Result) : (s.finish r).rx = s.rx := rfl

@[simp] theorem State.finish_txAns (s : State) (r : Result) : (s.finish r).txAns = s.txAns := rfl

@[simp] theorem State.finish_sent (s : State) (r : Result) : (s.finish r).sent = s.sent := rfl

@[simp] theorem State.finish_todo (s : State) (r : Result) : (s.finish r).todo = s.todo := rfl

@[simp] theorem State.finish_script (s : State) (r : Result) : (s.finish r).script = s.script := rfl

@[simp] theorem State.finish_reads (s : State) (r : Result) : (s.finish r).reads = s.reads := rfl

@[simp] theorem State.finish_draws (s : State) (r : Result) : (s.finish r).draws = s.draws := rfl

/-! ### accepted -/

@[simp] theorem State.accepted_phase (s : State) (k : BitVec 4) : (s.accepted k).phase = s.phase := rfl

@[simp] theorem State.accepted_op (s : State) (k : BitVec 4) : (s.accepted k).op = k := rfl

@[simp] theorem State.accepted_cmd (s : State) (k : BitVec 4) : (s.accepted k).cmd = s.cmd := rfl

@[simp] theorem State.accepted_arg (s : State) (k : BitVec 4) :
    (s.accepted k).arg = Config.freeArg s.draws := rfl

@[simp] theorem State.accepted_txbuf (s : State) (k : BitVec 4) : (s.accepted k).txbuf = s.txbuf := rfl

@[simp] theorem State.accepted_txidx (s : State) (k : BitVec 4) : (s.accepted k).txidx = s.txidx := rfl

@[simp] theorem State.accepted_hbuf (s : State) (k : BitVec 4) : (s.accepted k).hbuf = s.hbuf := rfl

@[simp] theorem State.accepted_hcnt (s : State) (k : BitVec 4) : (s.accepted k).hcnt = s.hcnt := rfl

@[simp] theorem State.accepted_rlen (s : State) (k : BitVec 4) : (s.accepted k).rlen = s.rlen := rfl

@[simp] theorem State.accepted_rbuf (s : State) (k : BitVec 4) : (s.accepted k).rbuf = s.rbuf := rfl

@[simp] theorem State.accepted_bcnt (s : State) (k : BitVec 4) : (s.accepted k).bcnt = s.bcnt := rfl

@[simp] theorem State.accepted_xacc (s : State) (k : BitVec 4) : (s.accepted k).xacc = s.xacc := rfl

@[simp] theorem State.accepted_resValid (s : State) (k : BitVec 4) : (s.accepted k).resValid = false := rfl

@[simp] theorem State.accepted_res (s : State) (k : BitVec 4) : (s.accepted k).res = s.res := rfl

@[simp] theorem State.accepted_fault (s : State) (k : BitVec 4) : (s.accepted k).fault = s.fault := rfl

@[simp] theorem State.accepted_faultCode (s : State) (k : BitVec 4) : (s.accepted k).faultCode = s.faultCode := rfl

@[simp] theorem State.accepted_rx (s : State) (k : BitVec 4) : (s.accepted k).rx = s.rx := rfl

@[simp] theorem State.accepted_txAns (s : State) (k : BitVec 4) : (s.accepted k).txAns = s.txAns := rfl

@[simp] theorem State.accepted_sent (s : State) (k : BitVec 4) : (s.accepted k).sent = s.sent := rfl

@[simp] theorem State.accepted_todo (s : State) (k : BitVec 4) : (s.accepted k).todo = s.todo.tail := rfl

@[simp] theorem State.accepted_script (s : State) (k : BitVec 4) : (s.accepted k).script = s.script := rfl

@[simp] theorem State.accepted_reads (s : State) (k : BitVec 4) : (s.accepted k).reads = s.reads := rfl

@[simp] theorem State.accepted_draws (s : State) (k : BitVec 4) : (s.accepted k).draws = s.draws + 1 := rfl

/-! ### startExchange -/

@[simp] theorem State.startExchange_phase (s : State) (c : Half) (d : List Byte) :
    (s.startExchange c d).phase = .tx := rfl

@[simp] theorem State.startExchange_op (s : State) (c : Half) (d : List Byte) :
    (s.startExchange c d).op = s.op := rfl

@[simp] theorem State.startExchange_cmd (s : State) (c : Half) (d : List Byte) :
    (s.startExchange c d).cmd = c := rfl

@[simp] theorem State.startExchange_arg (s : State) (c : Half) (d : List Byte) :
    (s.startExchange c d).arg = s.arg := rfl

@[simp] theorem State.startExchange_txbuf (s : State) (c : Half) (d : List Byte) :
    (s.startExchange c d).txbuf = encodeReq c d := rfl

@[simp] theorem State.startExchange_txidx (s : State) (c : Half) (d : List Byte) :
    (s.startExchange c d).txidx = 0 := rfl

@[simp] theorem State.startExchange_hbuf (s : State) (c : Half) (d : List Byte) :
    (s.startExchange c d).hbuf = s.hbuf := rfl

@[simp] theorem State.startExchange_hcnt (s : State) (c : Half) (d : List Byte) :
    (s.startExchange c d).hcnt = s.hcnt := rfl

@[simp] theorem State.startExchange_rlen (s : State) (c : Half) (d : List Byte) :
    (s.startExchange c d).rlen = s.rlen := rfl

@[simp] theorem State.startExchange_rbuf (s : State) (c : Half) (d : List Byte) :
    (s.startExchange c d).rbuf = s.rbuf := rfl

@[simp] theorem State.startExchange_bcnt (s : State) (c : Half) (d : List Byte) :
    (s.startExchange c d).bcnt = s.bcnt := rfl

@[simp] theorem State.startExchange_xacc (s : State) (c : Half) (d : List Byte) :
    (s.startExchange c d).xacc = s.xacc := rfl

@[simp] theorem State.startExchange_resValid (s : State) (c : Half) (d : List Byte) :
    (s.startExchange c d).resValid = s.resValid := rfl

@[simp] theorem State.startExchange_res (s : State) (c : Half) (d : List Byte) :
    (s.startExchange c d).res = s.res := rfl

@[simp] theorem State.startExchange_fault (s : State) (c : Half) (d : List Byte) :
    (s.startExchange c d).fault = s.fault := rfl

@[simp] theorem State.startExchange_faultCode (s : State) (c : Half) (d : List Byte) :
    (s.startExchange c d).faultCode = s.faultCode := rfl

@[simp] theorem State.startExchange_rx (s : State) (c : Half) (d : List Byte) :
    (s.startExchange c d).rx = s.rx := rfl

@[simp] theorem State.startExchange_txAns (s : State) (c : Half) (d : List Byte) :
    (s.startExchange c d).txAns = s.txAns := rfl

@[simp] theorem State.startExchange_sent (s : State) (c : Half) (d : List Byte) :
    (s.startExchange c d).sent = s.sent := rfl

@[simp] theorem State.startExchange_todo (s : State) (c : Half) (d : List Byte) :
    (s.startExchange c d).todo = s.todo := rfl

@[simp] theorem State.startExchange_script (s : State) (c : Half) (d : List Byte) :
    (s.startExchange c d).script = s.script := rfl

@[simp] theorem State.startExchange_reads (s : State) (c : Half) (d : List Byte) :
    (s.startExchange c d).reads = s.reads := rfl

@[simp] theorem State.startExchange_draws (s : State) (c : Half) (d : List Byte) :
    (s.startExchange c d).draws = s.draws := rfl

/-! ### resetBlock -/

@[simp] theorem State.resetBlock_phase (s : State) : (s.resetBlock).phase = .idle := rfl

@[simp] theorem State.resetBlock_op (s : State) : (s.resetBlock).op = 0 := rfl

@[simp] theorem State.resetBlock_cmd (s : State) : (s.resetBlock).cmd = 0 := rfl

@[simp] theorem State.resetBlock_arg (s : State) : (s.resetBlock).arg = 0 := rfl

@[simp] theorem State.resetBlock_txbuf (s : State) : (s.resetBlock).txbuf = [] := rfl

@[simp] theorem State.resetBlock_txidx (s : State) : (s.resetBlock).txidx = 0 := rfl

@[simp] theorem State.resetBlock_hbuf (s : State) : (s.resetBlock).hbuf = ⟨0, 0, 0, 0⟩ := rfl

@[simp] theorem State.resetBlock_hcnt (s : State) : (s.resetBlock).hcnt = 0 := rfl

@[simp] theorem State.resetBlock_rlen (s : State) : (s.resetBlock).rlen = 0 := rfl

@[simp] theorem State.resetBlock_rbuf (s : State) : (s.resetBlock).rbuf = [] := rfl

@[simp] theorem State.resetBlock_bcnt (s : State) : (s.resetBlock).bcnt = 0 := rfl

@[simp] theorem State.resetBlock_xacc (s : State) : (s.resetBlock).xacc = 0 := rfl

@[simp] theorem State.resetBlock_resValid (s : State) : (s.resetBlock).resValid = false := rfl

@[simp] theorem State.resetBlock_res (s : State) : (s.resetBlock).res = .empty := rfl

@[simp] theorem State.resetBlock_fault (s : State) : (s.resetBlock).fault = false := rfl

@[simp] theorem State.resetBlock_faultCode (s : State) : (s.resetBlock).faultCode = .none := rfl

@[simp] theorem State.resetBlock_rx (s : State) : (s.resetBlock).rx = s.rx := rfl

@[simp] theorem State.resetBlock_txAns (s : State) : (s.resetBlock).txAns = s.txAns := rfl

@[simp] theorem State.resetBlock_sent (s : State) : (s.resetBlock).sent = s.sent := rfl

@[simp] theorem State.resetBlock_todo (s : State) : (s.resetBlock).todo = s.todo := rfl

@[simp] theorem State.resetBlock_script (s : State) : (s.resetBlock).script = s.script := rfl

@[simp] theorem State.resetBlock_reads (s : State) : (s.resetBlock).reads = s.reads := rfl

@[simp] theorem State.resetBlock_draws (s : State) : (s.resetBlock).draws = s.draws := rfl

/-! ### raise: the first fault's code is kept (60_exceptions.md R238) -/

/-- A faulted block is not changed by another fault. -/
@[simp] theorem State.raise_of_fault {s : State} (h : s.fault = true) (c : FaultCode) : s.raise c = s := by
  simp [State.raise, h]

/-- The first fault sets the flag and the code and nothing else. -/
theorem State.raise_of_not_fault {s : State} (h : s.fault = false) (c : FaultCode) :
    s.raise c = { s with fault := true, faultCode := c } := by
  simp [State.raise, h]

@[simp] theorem State.raise_fault (s : State) (c : FaultCode) : (s.raise c).fault = true := by
  unfold State.raise; split <;> simp_all

@[simp] theorem State.raise_faultCode (s : State) (c : FaultCode) :
    (s.raise c).faultCode = if s.fault then s.faultCode else c := by
  unfold State.raise; split <;> rfl

@[simp] theorem State.raise_phase (s : State) (c : FaultCode) : (s.raise c).phase = s.phase := by
  unfold State.raise; split <;> rfl

@[simp] theorem State.raise_op (s : State) (c : FaultCode) : (s.raise c).op = s.op := by
  unfold State.raise; split <;> rfl

@[simp] theorem State.raise_cmd (s : State) (c : FaultCode) : (s.raise c).cmd = s.cmd := by
  unfold State.raise; split <;> rfl

@[simp] theorem State.raise_arg (s : State) (c : FaultCode) : (s.raise c).arg = s.arg := by
  unfold State.raise; split <;> rfl

@[simp] theorem State.raise_txbuf (s : State) (c : FaultCode) : (s.raise c).txbuf = s.txbuf := by
  unfold State.raise; split <;> rfl

@[simp] theorem State.raise_txidx (s : State) (c : FaultCode) : (s.raise c).txidx = s.txidx := by
  unfold State.raise; split <;> rfl

@[simp] theorem State.raise_hbuf (s : State) (c : FaultCode) : (s.raise c).hbuf = s.hbuf := by
  unfold State.raise; split <;> rfl

@[simp] theorem State.raise_hcnt (s : State) (c : FaultCode) : (s.raise c).hcnt = s.hcnt := by
  unfold State.raise; split <;> rfl

@[simp] theorem State.raise_rlen (s : State) (c : FaultCode) : (s.raise c).rlen = s.rlen := by
  unfold State.raise; split <;> rfl

@[simp] theorem State.raise_rbuf (s : State) (c : FaultCode) : (s.raise c).rbuf = s.rbuf := by
  unfold State.raise; split <;> rfl

@[simp] theorem State.raise_bcnt (s : State) (c : FaultCode) : (s.raise c).bcnt = s.bcnt := by
  unfold State.raise; split <;> rfl

@[simp] theorem State.raise_xacc (s : State) (c : FaultCode) : (s.raise c).xacc = s.xacc := by
  unfold State.raise; split <;> rfl

@[simp] theorem State.raise_resValid (s : State) (c : FaultCode) : (s.raise c).resValid = s.resValid := by
  unfold State.raise; split <;> rfl

@[simp] theorem State.raise_res (s : State) (c : FaultCode) : (s.raise c).res = s.res := by
  unfold State.raise; split <;> rfl

@[simp] theorem State.raise_rx (s : State) (c : FaultCode) : (s.raise c).rx = s.rx := by
  unfold State.raise; split <;> rfl

@[simp] theorem State.raise_txAns (s : State) (c : FaultCode) : (s.raise c).txAns = s.txAns := by
  unfold State.raise; split <;> rfl

@[simp] theorem State.raise_sent (s : State) (c : FaultCode) : (s.raise c).sent = s.sent := by
  unfold State.raise; split <;> rfl

@[simp] theorem State.raise_todo (s : State) (c : FaultCode) : (s.raise c).todo = s.todo := by
  unfold State.raise; split <;> rfl

@[simp] theorem State.raise_script (s : State) (c : FaultCode) : (s.raise c).script = s.script := by
  unfold State.raise; split <;> rfl

@[simp] theorem State.raise_reads (s : State) (c : FaultCode) : (s.raise c).reads = s.reads := by
  unfold State.raise; split <;> rfl

@[simp] theorem State.raise_draws (s : State) (c : FaultCode) : (s.raise c).draws = s.draws := by
  unfold State.raise; split <;> rfl

end Sys2Proof.Machine
end

