-- ==== Sys2Proof/Laws/Ops.lean ====
section
/-! SUPPORT. What each shared operation can do, said once: acceptance, completion, interpretation. -/

namespace Sys2Proof.Machine

/-- Everything an acceptance can do (60_exceptions.md R236). -/
theorem accept_cases (code : BitVec 4) (bad : Option FaultCode) (act : State → State) (s : State) :
    (s.fault = true ∧ accept code bad act s = .next s.nextLine)
    ∨ (s.fault = false ∧ s.phase ≠ .idle
        ∧ accept code bad act s = .next { s.nextLine with fault := true, faultCode := .hostOverlap })
    ∨ (s.fault = false ∧ s.phase = .idle ∧ ∃ c, bad = some c
        ∧ accept code bad act s = .next { s.nextLine with fault := true, faultCode := c })
    ∨ (s.fault = false ∧ s.phase = .idle ∧ bad = none ∧ accept code bad act s = .next (act (s.accepted code))) := by
  unfold accept
  cases hf : s.fault
  · by_cases hp : s.phase = .idle
    · cases bad with
      | none => simp [hp]
      | some c => simp [hp, State.raise_of_not_fault, hf]
    · simp [hp, State.raise_of_not_fault, hf]
  · simp

theorem accept_faulted {code : BitVec 4} {bad : Option FaultCode} {act : State → State} {s : State}
    (h : s.fault = true) : accept code bad act s = .next s.nextLine := by
  simp [accept, h]

theorem accept_busy {code : BitVec 4} {bad : Option FaultCode} {act : State → State} {s : State}
    (h : s.fault = false) (hp : s.phase ≠ .idle) :
    accept code bad act s = .next { s.nextLine with fault := true, faultCode := .hostOverlap } := by
  simp [accept, h, hp, State.raise]

theorem accept_bad {code : BitVec 4} {c : FaultCode} {act : State → State} {s : State}
    (h : s.fault = false) (hp : s.phase = .idle) :
    accept code (some c) act s = .next { s.nextLine with fault := true, faultCode := c } := by
  simp [accept, h, hp, State.raise]

theorem accept_good {code : BitVec 4} {act : State → State} {s : State}
    (h : s.fault = false) (hp : s.phase = .idle) : accept code none act s = .next (act (s.accepted code)) := by
  simp [accept, h, hp]

/-- The code of an exchange operation is one of six (30_encoding.md R80). -/
theorem code_cases {code : BitVec 4} (h : 5 ≤ code.toNat ∧ code.toNat ≤ 10) :
    code = 0x5 ∨ code = 0x6 ∨ code = 0x7 ∨ code = 0x8 ∨ code = 0x9 ∨ code = 0xA := by
  revert h; revert code; decide

/-- An exchange operation interprets every response (43_command_status.md R187). -/
theorem interpret_isSome {code : BitVec 4} (h : 5 ≤ code.toNat ∧ code.toNat ≤ 10) (st : Byte) (a : List Byte)
    (k : Nat) : ∃ r, interpret code st a k = some r := by
  obtain rfl | rfl | rfl | rfl | rfl | rfl := code_cases h <;> exact ⟨_, rfl⟩

/-- Every interpretation is of a kind that is stored (10_state.md R30). -/
theorem interpret_kind {code : BitVec 4} {st : Byte} {a : List Byte} {k : Nat} {r : Result}
    (h : interpret code st a k = some r) : kindOf r ≠ .empty := by
  unfold interpret at h
  split at h <;> simp only [Option.some.injEq, reduceCtorEq] at h <;> subst h
  all_goals (try split) <;> (try split) <;> simp [kindOf, statusError]

/-- Everything `Complete` can do (43_command_status.md R185): it finishes with a stored kind of result, or `op` is no
exchange operation. -/
theorem complete_cases (o : ParseOut) (k : Nat) (s : State) :
    (∃ r, complete o k s = .next (s.finish r) ∧ kindOf r ≠ .empty
        ∧ some r = (match o with
          | .error e => some (.error (errorRecord e k))
          | .ok _ st a => interpret s.op st a k))
    ∨ (complete o k s = .fault .notAnExchange ∧ ¬ (5 ≤ s.op.toNat ∧ s.op.toNat ≤ 10)) := by
  cases o with
  | error e => exact .inl ⟨_, rfl, by simp [kindOf], rfl⟩
  | ok c st a =>
    cases h : interpret s.op st a k with
    | some r => exact .inl ⟨r, by simp [complete, h], interpret_kind h, by simp [h]⟩
    | none =>
      refine .inr ⟨by simp [complete, h], fun hc => ?_⟩
      obtain ⟨r, hr⟩ := interpret_isSome hc st a k
      rw [hr] at h
      cases h

@[simp] theorem complete_error (e : Err) (k : Nat) (s : State) :
    complete (.error e) k s = .next (s.finish (.error (errorRecord e k))) := rfl

end Sys2Proof.Machine
end

