-- ==== Sys2Proof/Laws/Parser.lean ====
section
/-! SUPPORT. Reading bytes from a stream and parsing: what each can do, said once (42_frame_parser.md R141). -/

namespace Sys2Proof.Machine

/-- A stream that begins with the wanted bytes gives them. -/
theorem takeBytes_bytes (bs : List Byte) (rest : List RxItem) :
    takeBytes bs.length (bs.map .byte ++ rest) = .got bs rest := by
  induction bs with
  | nil => rfl
  | cons b bs ih => simp [takeBytes, ih, Taken.cons]

/-- A stream that ends early gives the bytes before its end. -/
theorem takeBytes_ended {n : Nat} (bs : List Byte) (term : Term) (rest : List RxItem) (h : bs.length < n) :
    takeBytes n (bs.map .byte ++ termItem term :: rest) = .ended bs term rest := by
  induction bs generalizing n with
  | nil =>
    obtain ⟨n, rfl⟩ := Nat.exists_eq_add_of_lt h
    cases term <;> simp [takeBytes, termItem]
  | cons b bs ih =>
    obtain ⟨n, rfl⟩ : ∃ m, n = m + 1 := ⟨n - 1, by simp at h; omega⟩
    simp [takeBytes, ih (n := n) (by simpa using h), Taken.cons]

/-- A stream that offers too few bytes and no end makes the reader wait. -/
theorem takeBytes_waiting {n : Nat} (bs : List Byte) (h : bs.length < n) :
    takeBytes n (bs.map .byte) = .waiting := by
  induction bs generalizing n with
  | nil =>
    obtain ⟨n, rfl⟩ := Nat.exists_eq_add_of_lt h
    simp [takeBytes]
  | cons b bs ih =>
    obtain ⟨n, rfl⟩ : ∃ m, n = m + 1 := ⟨n - 1, by simp at h; omega⟩
    simp [takeBytes, ih (n := n) (by simpa using h), Taken.cons]

/-- Everything reading can do: the stream splits into bytes and a rest in one of three ways. -/
theorem takeBytes_cases (n : Nat) (items : List RxItem) :
    (∃ (bs : List Byte) (rest : List RxItem), bs.length = n ∧ items = bs.map .byte ++ rest ∧ takeBytes n items = .got bs rest)
    ∨ (∃ (bs : List Byte) (term : Term) (rest : List RxItem), bs.length < n ∧ items = bs.map .byte ++ termItem term :: rest
        ∧ takeBytes n items = .ended bs term rest)
    ∨ (∃ bs : List Byte, bs.length < n ∧ items = bs.map .byte ∧ takeBytes n items = .waiting) := by
  induction n generalizing items with
  | zero => exact .inl ⟨[], items, rfl, rfl, by simp [takeBytes]⟩
  | succ n ih =>
    cases items with
    | nil => exact .inr (.inr ⟨[], by simp, rfl, rfl⟩)
    | cons x items =>
      cases x with
      | eos => exact .inr (.inl ⟨[], .eos, items, by simp, rfl, rfl⟩)
      | err => exact .inr (.inl ⟨[], .err, items, by simp, rfl, rfl⟩)
      | byte b =>
        obtain ⟨bs, rest, hl, rfl, h⟩ | ⟨bs, term, rest, hl, rfl, h⟩ | ⟨bs, hl, rfl, h⟩ := ih items
        · exact .inl ⟨b :: bs, rest, by simp [hl], rfl, by simp [takeBytes, h, Taken.cons]⟩
        · exact .inr (.inl ⟨b :: bs, term, rest, by simp [hl], rfl, by simp [takeBytes, h, Taken.cons]⟩)
        · exact .inr (.inr ⟨b :: bs, by simp [hl], rfl, by simp [takeBytes, h, Taken.cons]⟩)

/-- A stream of bytes with an end never makes the reader wait. -/
theorem takeBytes_terminated (n : Nat) (data : List Byte) (term : Term) :
    takeBytes n (decItems data term) ≠ .waiting := by
  intro h
  obtain ⟨_, _, _, _, h'⟩ | ⟨_, _, _, _, _, h'⟩ | ⟨bs, _, hb, _⟩ := takeBytes_cases n (decItems data term)
  · rw [h'] at h; cases h
  · rw [h'] at h; cases h
  · have hm : termItem term ∈ bs.map RxItem.byte := by rw [← hb]; simp [decItems]
    obtain ⟨b, -, hb⟩ := List.mem_map.1 hm
    cases term <;> simp [termItem] at hb

/-- What is left of `DEC`'s input after its first bytes is again bytes and the terminator. -/
theorem decItems_split {data bs : List Byte} {term : Term} {rest : List RxItem}
    (h : decItems data term = bs.map .byte ++ rest) : ∃ data', data = bs ++ data' ∧ rest = decItems data' term := by
  induction bs generalizing data with
  | nil => exact ⟨data, rfl, h.symm⟩
  | cons b bs ih =>
    cases data with
    | nil => cases term <;> simp [decItems, termItem] at h
    | cons d data =>
      simp only [decItems, List.map_cons, List.cons_append, List.cons.injEq, RxItem.byte.injEq] at h
      obtain ⟨data', rfl, hr⟩ := ih (data := data) h.2
      exact ⟨data', by simp [h.1], hr⟩

/-- Parsing a stream that begins with a whole header: the checks of the header, then the body (42_frame_parser.md R141). -/
theorem parse_header (b0 b1 b2 b3 : Byte) (rest : List RxItem) :
    parse ([b0, b1, b2, b3].map .byte ++ rest)
      = if b0 ≠ hi Config.framePrefix ∨ b1 ≠ lo Config.framePrefix then some (.error (.badPrefix b0 b1), 4, rest)
        else if be16 b2 b3 < 4 then some (.error (.badLength (be16 b2 b3)), 4, rest)
        else
          match takeBytes (be16 b2 b3) rest with
          | .waiting => none
          | .ended r term rest' => some (.error (bodyEnd r.length term), 4 + r.length, rest')
          | .got r rest' => some (parseBody r, 4 + r.length, rest') := by
  have h : takeBytes 4 ([b0, b1, b2, b3].map .byte ++ rest) = .got [b0, b1, b2, b3] rest :=
    takeBytes_bytes [b0, b1, b2, b3] rest
  unfold parse
  rw [h]
  rfl

/-- Parsing behind a good header is reading the body. -/
theorem parse_good {b2 b3 : Byte} (h : 4 ≤ be16 b2 b3) (rest : List RxItem) :
    parse ([hi Config.framePrefix, lo Config.framePrefix, b2, b3].map .byte ++ rest)
      = match takeBytes (be16 b2 b3) rest with
        | .waiting => none
        | .ended r term rest' => some (.error (bodyEnd r.length term), 4 + r.length, rest')
        | .got r rest' => some (parseBody r, 4 + r.length, rest') := by
  rw [parse_header, if_neg (by simp), if_neg (by omega)]

/-- The check of a whole body, by its covered bytes and its checksum byte (42_frame_parser.md R146, R147). -/
theorem parseBody_fields (c1 c0 st ck : Byte) (a : List Byte) :
    parseBody ([c1, c0, st] ++ a ++ [ck])
      = if xorAll ([c1, c0, st] ++ a) ≠ ck then .error (.integrity (xorAll ([c1, c0, st] ++ a)) ck)
        else .ok (joinHalf c1 c0) st a := by
  have hl : ([c1, c0, st] ++ a ++ [ck]).length - 1 = ([c1, c0, st] ++ a).length := by simp
  have h1 : slice ([c1, c0, st] ++ a ++ [ck]) 0 ([c1, c0, st] ++ a).length = [c1, c0, st] ++ a := slice_front _ _
  have h2 : byteAt ([c1, c0, st] ++ a ++ [ck]) ([c1, c0, st] ++ a).length = ck := byteAt_append_right _ _ 0
  have h3 : slice ([c1, c0, st] ++ a ++ [ck]) 3 ([c1, c0, st] ++ a).length = a := by simp [slice]
  simp only [parseBody, hl, h1, h2, h3]
  rfl

/-- `DEC`'s parse always has an outcome (42_frame_parser.md R160: the items never run out). -/
theorem parse_terminated (data : List Byte) (term : Term) :
    ∃ o k rest, parse (decItems data term) = some (o, k, rest) := by
  obtain ⟨h, rest, -, hi, e⟩ | ⟨h, t, rest, -, -, e⟩ | ⟨_, _, _, e⟩ := takeBytes_cases 4 (decItems data term)
  · obtain ⟨data', -, rfl⟩ := decItems_split hi
    simp only [parse, e]
    split_ifs
    · exact ⟨_, _, _, rfl⟩
    · exact ⟨_, _, _, rfl⟩
    · generalize hn : be16 (byteAt h 2) (byteAt h 3) = n
      have hw := takeBytes_terminated n data' term
      cases ht : takeBytes n (decItems data' term) with
      | got r rest => exact ⟨_, _, _, rfl⟩
      | ended r t rest => exact ⟨_, _, _, rfl⟩
      | waiting => exact absurd ht hw
  · exact ⟨_, _, _, by simp [parse, e]; exact ⟨rfl, rfl, rfl⟩⟩
  · exact absurd e (takeBytes_terminated _ _ _)

/-- `DEC` stores a decoded frame or an error, never the record that stands for no result (10_state.md R30). -/
theorem decResult_kind (data : List Byte) (term : Term) : kindOf (decResult data term) ≠ .empty := by
  obtain ⟨o, k, rest, h⟩ := parse_terminated data term
  cases o <;> simp [decResult, h, kindOf]

end Sys2Proof.Machine
end

