-- ==== Sys2Proof/Laws/PerInstr.lean ====
section
/-! SUPPORT. The per-instruction family `RecordCode`: the request record that reaches the block carries the operation code
that spec/opcode_table.json gives the instruction (30_encoding.md R80), and a raw command's is `XCHG` (R84). -/

namespace Sys2Proof.Laws.RecordCode

/-- The operation code of the record the block sees (30_encoding.md R80, R84). -/
def code : Instr → BitVec 4
  | .csum _ => 0x1
  | .encReq _ _ => 0x2
  | .encRsp _ _ _ => 0x3
  | .dec _ _ => 0x4
  | .xchg _ _ => 0x5
  | .info => 0x6
  | .beep _ => 0x7
  | .beepNs _ => 0x8
  | .led _ => 0x9
  | .readTag => 0xA
  | .reservedZero => 0x0
  | .reservedHigh op => op
  | .cmdBeep _ => 0x5
  | .cmdRead _ => 0x5
  | .cmdInfo _ => 0x5
  | .cmdLed _ => 0x5
  | .cmdWrite2 _ => 0x5
  | .cmdWrite3 _ => 0x5

/-- The record of a well-formed instruction carries its code, and the code is reserved for reserved instructions only. -/
def Statement (i : Instr) : Prop :=
  WellFormed i = true → (encode i).toReq.op = code i
    ∧ ((code i = 0 ∨ 0xB ≤ (code i).toNat) ↔ (i = .reservedZero ∨ ∃ op, i = .reservedHigh op))

theorem csum (data : List Byte) : Statement (.csum data) := by simp [Statement, encode, Request.toReq, code]

theorem encReq (cmd : Half) (data : List Byte) : Statement (.encReq cmd data) := by
  simp [Statement, encode, Request.toReq, code]

theorem encRsp (cmd : Half) (st : Byte) (answer : List Byte) : Statement (.encRsp cmd st answer) := by
  simp [Statement, encode, Request.toReq, code]

theorem dec (data : List Byte) (term : Term) : Statement (.dec data term) := by
  simp [Statement, encode, Request.toReq, code]

theorem xchg (cmd : Half) (data : List Byte) : Statement (.xchg cmd data) := by
  simp [Statement, encode, Request.toReq, code]

theorem info : Statement .info := by simp [Statement, encode, Request.toReq, code]

theorem beep (units : Byte) : Statement (.beep units) := by simp [Statement, encode, Request.toReq, code]

theorem beepNs (ns : BitVec 64) : Statement (.beepNs ns) := by simp [Statement, encode, Request.toReq, code]

theorem led (mode : Byte) : Statement (.led mode) := by simp [Statement, encode, Request.toReq, code]

theorem readTag : Statement .readTag := by simp [Statement, encode, Request.toReq, code]

theorem reservedZero : Statement .reservedZero := by simp [Statement, encode, Request.toReq, code]

theorem reservedHigh (op : BitVec 4) : Statement (.reservedHigh op) := by
  simp only [Statement, encode, Request.toReq, code, WellFormed, decide_eq_true_eq, true_and]
  exact fun h => ⟨fun _ => .inr ⟨op, rfl⟩, fun _ => .inr h⟩

theorem cmdBeep (data : List Byte) : Statement (.cmdBeep data) := by simp [Statement, encode, Request.toReq, code]

theorem cmdRead (data : List Byte) : Statement (.cmdRead data) := by simp [Statement, encode, Request.toReq, code]

theorem cmdInfo (data : List Byte) : Statement (.cmdInfo data) := by simp [Statement, encode, Request.toReq, code]

theorem cmdLed (data : List Byte) : Statement (.cmdLed data) := by simp [Statement, encode, Request.toReq, code]

theorem cmdWrite2 (data : List Byte) : Statement (.cmdWrite2 data) := by simp [Statement, encode, Request.toReq, code]

theorem cmdWrite3 (data : List Byte) : Statement (.cmdWrite3 data) := by simp [Statement, encode, Request.toReq, code]

end Sys2Proof.Laws.RecordCode
end

