-- ==== Sys2Proof/Laws/Step.lean ====
section
/-! SUPPORT. What a step can do, said once: every instruction (acceptance), and every step of the block. Invariants and
rules of the whole machine are derived from these. -/

namespace Sys2Proof.Machine

theorem tooLong_eq_none {n : Nat} {d : List Byte} : tooLong n d = none ↔ d.length ≤ n := by
  simp [tooLong]

theorem tooLong_of_lt {n : Nat} {d : List Byte} (h : n < d.length) : tooLong n d = some .dataTooLong := by
  simp [tooLong, h]

theorem badMode_eq_none {m : Byte} : badMode m = none ↔ m.toNat ≤ 2 := by
  simp [badMode, Config.ledGreen, BitVec.lt_def]

theorem badMode_of_lt {m : Byte} (h : 2 < m.toNat) : badMode m = some .badLedMode := by
  simp [badMode, Config.ledGreen, BitVec.lt_def, h]

/-- The fault of an operand has a cause. -/
theorem operandFault_ne_none {i : Instr} {c : FaultCode} (h : operandFault i = some c) : c ≠ .none := by
  rintro rfl
  cases i <;> simp [operandFault, tooLong, badMode] at h

/-- The data of an accepted exchange fits its frame (41_frame_encoder.md R123), and its code is an exchange code. -/
theorem exchangeOf_fits {i : Instr} {code : BitVec 4} {c : Half} {d : List Byte}
    (h : exchangeOf i = some (code, c, d)) (hb : operandFault i = none) :
    d.length ≤ 65532 ∧ exchangeCode code = true := by
  cases i <;> simp only [exchangeOf, Option.some.injEq, Prod.mk.injEq, reduceCtorEq] at h <;>
    obtain ⟨rfl, rfl, rfl⟩ := h <;> simp_all [operandFault, tooLong_eq_none, exchangeCode]

/-- Every instruction is an acceptance with its operand fault; a one-step operation finishes with a stored kind of result,
an exchange operation starts its exchange (60_exceptions.md R236; 43_command_status.md R181). -/
theorem exec_eq_accept (i : Instr) :
    (∃ code r, exchangeOf i = none ∧ kindOf r ≠ .empty
        ∧ ∀ s, exec i s = accept code (operandFault i) (fun t => t.finish r) s)
    ∨ (∃ code c d, exchangeOf i = some (code, c, d)
        ∧ ∃ f : Byte → Byte, ∀ s, exec i s
          = accept code (operandFault i) (fun t => { t with arg := f t.arg }.startExchange c d) s)
    ∨ (exchangeOf i = none ∧ operandFault i = some .illegalOp
        ∧ ∃ code, ∀ s, exec i s = accept code (some .illegalOp) id s) := by
  cases i with
  | csum data => exact .inl ⟨0x1, .checksum (xorAll data), rfl, by simp [kindOf], fun _ => rfl⟩
  | encReq cmd data => exact .inl ⟨0x2, .frame (encodeReq cmd data), rfl, by simp [kindOf], fun _ => rfl⟩
  | encRsp cmd st answer => exact .inl ⟨0x3, .frame (encodeRsp cmd st answer), rfl, by simp [kindOf], fun _ => rfl⟩
  | dec data term => exact .inl ⟨0x4, decResult data term, rfl, decResult_kind data term, fun _ => rfl⟩
  | xchg cmd data => exact .inr (.inl ⟨0x5, _, _, rfl, id, fun _ => rfl⟩)
  | info => exact .inr (.inl ⟨0x6, _, _, rfl, id, fun _ => rfl⟩)
  | beep units => exact .inr (.inl ⟨0x7, _, _, rfl, fun _ => units, fun _ => rfl⟩)
  | beepNs ns => exact .inr (.inl ⟨0x8, _, _, rfl, fun _ => beepUnits ns, fun _ => rfl⟩)
  | led mode => exact .inr (.inl ⟨0x9, _, _, rfl, fun _ => mode, fun _ => rfl⟩)
  | readTag => exact .inr (.inl ⟨0xA, _, _, rfl, id, fun _ => rfl⟩)
  | reservedZero => exact .inr (.inr ⟨rfl, rfl, 0x0, fun _ => rfl⟩)
  | reservedHigh op => exact .inr (.inr ⟨rfl, rfl, op, fun _ => rfl⟩)
  | cmdBeep data => exact .inr (.inl ⟨0x5, _, _, rfl, id, fun _ => rfl⟩)
  | cmdRead data => exact .inr (.inl ⟨0x5, _, _, rfl, id, fun _ => rfl⟩)
  | cmdInfo data => exact .inr (.inl ⟨0x5, _, _, rfl, id, fun _ => rfl⟩)
  | cmdLed data => exact .inr (.inl ⟨0x5, _, _, rfl, id, fun _ => rfl⟩)
  | cmdWrite2 data => exact .inr (.inl ⟨0x5, _, _, rfl, id, fun _ => rfl⟩)
  | cmdWrite3 data => exact .inr (.inl ⟨0x5, _, _, rfl, id, fun _ => rfl⟩)

/-- Everything an instruction can do: the request is not accepted by a faulted block; it raises HOST_OVERLAP; it raises
its operand fault; it completes in one step; or it starts its exchange. -/
theorem exec_cases (i : Instr) (s : State) :
    (s.fault = true ∧ exec i s = .next s.nextLine)
    ∨ (s.fault = false ∧ s.phase ≠ .idle
        ∧ exec i s = .next { s.nextLine with fault := true, faultCode := .hostOverlap })
    ∨ (s.fault = false ∧ s.phase = .idle ∧ ∃ c, operandFault i = some c
        ∧ exec i s = .next { s.nextLine with fault := true, faultCode := c })
    ∨ (s.fault = false ∧ s.phase = .idle ∧ operandFault i = none ∧ exchangeOf i = none ∧ ∃ code r, kindOf r ≠ .empty
        ∧ exec i s = .next ((s.accepted code).finish r))
    ∨ (s.fault = false ∧ s.phase = .idle ∧ operandFault i = none ∧ ∃ code c d, exchangeOf i = some (code, c, d)
        ∧ ∃ a, exec i s = .next ({ s.accepted code with arg := a }.startExchange c d)) := by
  obtain ⟨code, r, hx, hk, h⟩ | ⟨code, c, d, hx, f, h⟩ | ⟨hx, hb, code, h⟩ := exec_eq_accept i
  · obtain ⟨hf, e⟩ | ⟨hf, hp, e⟩ | ⟨hf, hp, c, hc, e⟩ | ⟨hf, hp, hb, e⟩ :=
      accept_cases code (operandFault i) (fun t => t.finish r) s
    · exact .inl ⟨hf, (h s).trans e⟩
    · exact .inr (.inl ⟨hf, hp, (h s).trans e⟩)
    · exact .inr (.inr (.inl ⟨hf, hp, c, hc, (h s).trans e⟩))
    · exact .inr (.inr (.inr (.inl ⟨hf, hp, hb, hx, code, r, hk, (h s).trans e⟩)))
  · obtain ⟨hf, e⟩ | ⟨hf, hp, e⟩ | ⟨hf, hp, c', hc, e⟩ | ⟨hf, hp, hb, e⟩ :=
      accept_cases code (operandFault i) (fun t => { t with arg := f t.arg }.startExchange c d) s
    · exact .inl ⟨hf, (h s).trans e⟩
    · exact .inr (.inl ⟨hf, hp, (h s).trans e⟩)
    · exact .inr (.inr (.inl ⟨hf, hp, c', hc, (h s).trans e⟩))
    · exact .inr (.inr (.inr (.inr ⟨hf, hp, hb, code, c, d, hx, _, (h s).trans e⟩)))
  · obtain ⟨hf, e⟩ | ⟨hf, hp, e⟩ | ⟨hf, hp, c, hc, e⟩ | ⟨_, _, hb', _⟩ := accept_cases code (some .illegalOp) id s
    · exact .inl ⟨hf, (h s).trans e⟩
    · exact .inr (.inl ⟨hf, hp, (h s).trans e⟩)
    · exact .inr (.inr (.inl ⟨hf, hp, c, hb.trans hc, (h s).trans e⟩))
    · cases hb'

/-- Everything the TX step can do (43_command_status.md R183, R184; 20_memory.md R51). -/
theorem txStep_cases (s : State) :
    (s.txbuf.length ≤ s.txidx ∧ txStep s = .fault .txIndexOutOfRange)
    ∨ ∃ b, s.txbuf[s.txidx]? = some b ∧ s.txidx < s.txbuf.length
      ∧ ((s.txAns = [] ∧ txStep s = .next s)
        ∨ (∃ ans, s.txAns = .ack :: ans ∧ s.txidx + 1 = s.txbuf.length ∧ txStep s = .next
            { s with txAns := ans, sent := s.sent ++ [b], txidx := s.txidx + 1, phase := .rxHdr, hcnt := 0 })
        ∨ (∃ ans, s.txAns = .ack :: ans ∧ s.txidx + 1 < s.txbuf.length ∧ txStep s = .next
            { s with txAns := ans, sent := s.sent ++ [b], txidx := s.txidx + 1 })
        ∨ (∃ ans, s.txAns = .err :: ans ∧ txStep s = .next
            ({ s with txAns := ans }.finish (.error (errorRecord (.writeRejected s.txidx) 0))))) := by
  unfold txStep
  by_cases h : s.txidx < s.txbuf.length
  · refine .inr ⟨s.txbuf[s.txidx], by simp [h], h, ?_⟩
    simp only [List.getElem?_eq_getElem h]
    cases ha : s.txAns with
    | nil => exact .inl ⟨rfl, rfl⟩
    | cons a ans =>
      cases a with
      | err => exact .inr (.inr (.inr ⟨ans, rfl, rfl⟩))
      | ack =>
        by_cases hl : s.txidx + 1 = s.txbuf.length
        · exact .inr (.inl ⟨ans, rfl, hl, by simp [txAck, hl]⟩)
        · exact .inr (.inr (.inl ⟨ans, rfl, by omega, by simp [txAck, hl]⟩))
  · have h' : s.txbuf.length ≤ s.txidx := by omega
    exact .inl ⟨h', by simp [List.getElem?_eq_none h']⟩

/-- Everything the RX_HDR step can do (42_frame_parser.md R150, R151). -/
theorem rxHdrStep_cases (s : State) :
    (4 ≤ s.hcnt ∧ rxHdrStep s = .fault .headerCountOutOfRange)
    ∨ (s.hcnt < 4 ∧ s.rx = [] ∧ rxHdrStep s = .next s)
    ∨ (s.hcnt < 4 ∧ ∃ items e k, (s.rx = .eos :: items ∨ s.rx = .err :: items)
        ∧ rxHdrStep s = .next ({ s with rx := items }.finish (.error (errorRecord e k))))
    ∨ (s.hcnt < 4 ∧ ∃ b items, s.rx = .byte b :: items
        ∧ ((s.hcnt < 3 ∧ rxHdrStep s = .next
              { s with rx := items, hbuf := setHeaderByte s.hbuf s.hcnt b, hcnt := s.hcnt + 1 })
          ∨ (s.hcnt = 3 ∧ ∃ e, rxHdrStep s = .next
              ({ s with rx := items, hbuf := { s.hbuf with b3 := b }, hcnt := 4 }.finish (.error (errorRecord e 4))))
          ∨ (s.hcnt = 3 ∧ s.hbuf.b0 = hi Config.framePrefix ∧ s.hbuf.b1 = lo Config.framePrefix
              ∧ 4 ≤ be16 s.hbuf.b2 b
              ∧ rxHdrStep s = .next
                { s with
                  rx := items, hbuf := { s.hbuf with b3 := b }, hcnt := 4
                  rlen := be16 s.hbuf.b2 b, bcnt := 0, xacc := 0x00, rbuf := [], phase := .rxBody }))) := by
  unfold rxHdrStep
  by_cases h : s.hcnt < 4
  · simp only [h, if_true]
    cases hr : s.rx with
    | nil => exact .inr (.inl ⟨trivial, rfl, rfl⟩)
    | cons x items =>
      cases x with
      | eos => exact .inr (.inr (.inl ⟨trivial, items, _, _, .inl rfl, rfl⟩))
      | err => exact .inr (.inr (.inl ⟨trivial, items, _, _, .inr rfl, rfl⟩))
      | byte b =>
        refine .inr (.inr (.inr ⟨trivial, b, items, rfl, ?_⟩))
        by_cases h3 : s.hcnt = 3
        · simp only [headerByte, h3, headerCheck, setHeaderByte, if_true]
          by_cases hp : s.hbuf.b0 ≠ hi Config.framePrefix ∨ s.hbuf.b1 ≠ lo Config.framePrefix
          · exact .inr (.inl ⟨trivial, _, by rw [if_pos hp]; rfl⟩)
          · rw [if_neg hp]
            obtain ⟨h0, h1⟩ := not_or.1 hp
            by_cases hl : be16 s.hbuf.b2 b < Config.minLen
            · exact .inr (.inl ⟨trivial, _, by rw [if_pos hl]; rfl⟩)
            · rw [if_neg hl]
              exact .inr (.inr ⟨trivial, not_not.1 h0, not_not.1 h1, Nat.le_of_not_lt hl, rfl⟩)
        · have hne : ¬ s.hcnt + 1 = 4 := by omega
          exact .inl ⟨by omega, by simp [headerByte, hne]⟩
  · exact .inl ⟨by omega, by simp [h]⟩

/-- Everything the RX_BODY step can do (42_frame_parser.md R152, R153; 40_checksum.md R104). -/
theorem rxBodyStep_cases (s : State) :
    (s.rlen ≤ s.bcnt ∧ rxBodyStep s = .fault .bodyCountOutOfRange)
    ∨ (s.bcnt < s.rlen ∧ s.rx = [] ∧ rxBodyStep s = .next s)
    ∨ (s.bcnt < s.rlen ∧ ∃ items e k, (s.rx = .eos :: items ∨ s.rx = .err :: items)
        ∧ rxBodyStep s = .next ({ s with rx := items }.finish (.error (errorRecord e k))))
    ∨ (s.bcnt < s.rlen ∧ ∃ b items, s.rx = .byte b :: items
        ∧ ((s.bcnt + 1 < s.rlen ∧ rxBodyStep s = .next
              { s with rx := items, rbuf := s.rbuf ++ [b], bcnt := s.bcnt + 1, xacc := s.xacc ^^^ b })
          ∨ (s.bcnt + 1 = s.rlen ∧ rxBodyStep s = complete
              (if s.xacc ≠ b then .error (.integrity s.xacc b)
                else .ok (joinHalf (byteAt (s.rbuf ++ [b]) 0) (byteAt (s.rbuf ++ [b]) 1)) (byteAt (s.rbuf ++ [b]) 2)
                  (slice (s.rbuf ++ [b]) 3 (s.rlen - 1)))
              (4 + s.rlen) { s with rx := items, rbuf := s.rbuf ++ [b], bcnt := s.bcnt + 1 }))) := by
  unfold rxBodyStep
  by_cases h : s.bcnt < s.rlen
  · simp only [h, if_true]
    cases hr : s.rx with
    | nil => exact .inr (.inl ⟨trivial, rfl, rfl⟩)
    | cons x items =>
      cases x with
      | eos => exact .inr (.inr (.inl ⟨trivial, items, _, _, .inl rfl, rfl⟩))
      | err => exact .inr (.inr (.inl ⟨trivial, items, _, _, .inr rfl, rfl⟩))
      | byte b =>
        refine .inr (.inr (.inr ⟨trivial, b, items, rfl, ?_⟩))
        by_cases hl : s.bcnt + 1 = s.rlen
        · have hx : ¬ s.bcnt < s.rlen - 1 := by omega
          refine .inr ⟨hl, ?_⟩
          simp only [bodyByte, hl, hx, if_true, if_false, bodyCheck]
          split <;> simp_all
        · have hx : s.bcnt < s.rlen - 1 := by omega
          exact .inl ⟨by omega, by simp [bodyByte, hl, hx]⟩
  · exact .inl ⟨by omega, by simp [h]⟩

/-- A faulted or idle block has no step of its own (60_exceptions.md R238; 70_reset_and_hazards.md R262). -/
theorem blockStep_still {s : State} (h : s.fault = true ∨ s.phase = .idle) : blockStep s = .next s := by
  unfold blockStep
  cases hf : s.fault
  · simp_all
  · simp

theorem blockStep_tx {s : State} (h : s.fault = false) (hp : s.phase = .tx) : blockStep s = txStep s := by
  simp [blockStep, h, hp]

theorem blockStep_rxHdr {s : State} (h : s.fault = false) (hp : s.phase = .rxHdr) : blockStep s = rxHdrStep s := by
  simp [blockStep, h, hp]

theorem blockStep_rxBody {s : State} (h : s.fault = false) (hp : s.phase = .rxBody) :
    blockStep s = rxBodyStep s := by
  simp [blockStep, h, hp]

/-- Everything a step of the machine can do, by the host's next line: a step of the block, an instruction, or a line that
touches the host's own state, reset and the NO_RESULT fault apart. -/
theorem step_cases (s : State) :
    (step s = blockStep s)
    ∨ (s.todo.head? = some .idle ∧ step s = blockStep s.nextLine)
    ∨ (∃ r, s.todo.head? = some (.present r) ∧ step s = exec (decode r) s)
    ∨ (s.todo.head? = some .reset ∧ step s = .next s.nextLine.resetBlock)
    ∨ (s.todo.head? = some .readResult ∧ s.resValid = false ∧ step s = .next (s.nextLine.raise .noResult))
    ∨ (∃ lines reads, step s = .next { s with todo := lines, reads := reads })
    ∨ (step s = .fault .noSuchLabel) := by
  unfold step
  split
  · exact .inl rfl
  · exact .inr (.inr (.inl ⟨_, by simp_all, rfl⟩))
  · exact .inr (.inr (.inr (.inr (.inr (.inl ⟨_, _, rfl⟩)))))
  · unfold hostReadResult
    split
    · exact .inr (.inr (.inr (.inr (.inr (.inl ⟨_, _, rfl⟩)))))
    · exact .inr (.inr (.inr (.inr (.inl ⟨by simp_all, by simp_all, rfl⟩))))
  · exact .inr (.inr (.inr (.inl ⟨by simp_all, rfl⟩)))
  · exact .inr (.inl ⟨by simp_all, rfl⟩)
  · unfold hostAwait
    split
    · exact .inr (.inr (.inr (.inr (.inr (.inl ⟨s.todo, s.reads, rfl⟩)))))
    · split
      · exact .inr (.inr (.inr (.inr (.inr (.inl ⟨_, _, rfl⟩)))))
      · exact .inl rfl
  · exact .inr (.inr (.inr (.inr (.inr (.inl ⟨_, s.reads, rfl⟩)))))
  · unfold hostGoto
    split
    · exact .inr (.inr (.inr (.inr (.inr (.inl ⟨_, s.reads, rfl⟩)))))
    · exact .inr (.inr (.inr (.inr (.inr (.inr rfl)))))
  · unfold hostIfKind hostGoto
    split
    · split
      · exact .inr (.inr (.inr (.inr (.inr (.inl ⟨_, s.reads, rfl⟩)))))
      · exact .inr (.inr (.inr (.inr (.inr (.inr rfl)))))
    · exact .inr (.inr (.inr (.inr (.inr (.inl ⟨_, s.reads, rfl⟩)))))
  · exact .inl rfl

/-- With the host doing nothing, a run of the machine is a run of the block. -/
theorem step_of_todo_nil {s : State} (h : s.todo = []) : step s = blockStep s := by
  simp [step, h]

/-- Where `Complete` answers a next state, it has finished with a stored kind of result (43_command_status.md R185). -/
theorem complete_next {o : ParseOut} {k : Nat} {s t : State} (h : complete o k s = .next t) :
    ∃ r, t = s.finish r ∧ kindOf r ≠ .empty := by
  obtain ⟨r, e, hk, _⟩ | ⟨e, _⟩ := complete_cases o k s
  · rw [e] at h
    cases h
    exact ⟨r, rfl, hk⟩
  · rw [e] at h
    cases h

/-- Every next state of a step of the block: nothing moved, or one item did, in the phase that moves it. -/
theorem blockStep_next {s t : State} (h : blockStep s = .next t) :
    t = s ∨ (s.fault = false ∧ (
      (s.phase = .tx ∧ ∃ b ans, s.txbuf[s.txidx]? = some b ∧ s.txidx < s.txbuf.length ∧ (
        (s.txAns = .ack :: ans ∧ s.txidx + 1 = s.txbuf.length
          ∧ t = { s with txAns := ans, sent := s.sent ++ [b], txidx := s.txidx + 1, phase := .rxHdr, hcnt := 0 })
        ∨ (s.txAns = .ack :: ans ∧ s.txidx + 1 < s.txbuf.length
          ∧ t = { s with txAns := ans, sent := s.sent ++ [b], txidx := s.txidx + 1 })
        ∨ (s.txAns = .err :: ans ∧ ∃ r, kindOf r ≠ .empty ∧ t = { s with txAns := ans }.finish r)))
      ∨ (s.phase = .rxHdr ∧ s.hcnt < 4 ∧ ∃ x items, s.rx = x :: items ∧ (
        (∃ h n r, n ≤ 4 ∧ kindOf r ≠ .empty ∧ t = { s with rx := items, hbuf := h, hcnt := n }.finish r)
        ∨ (∃ b, s.hcnt < 3
          ∧ t = { s with rx := items, hbuf := setHeaderByte s.hbuf s.hcnt b, hcnt := s.hcnt + 1 })
        ∨ (∃ b, s.hcnt = 3 ∧ s.hbuf.b0 = hi Config.framePrefix ∧ s.hbuf.b1 = lo Config.framePrefix
          ∧ 4 ≤ be16 s.hbuf.b2 b ∧ t = { s with
            rx := items, hbuf := { s.hbuf with b3 := b }, hcnt := 4
            rlen := be16 s.hbuf.b2 b, bcnt := 0, xacc := 0x00, rbuf := [], phase := .rxBody })))
      ∨ (s.phase = .rxBody ∧ s.bcnt < s.rlen ∧ ∃ x items, s.rx = x :: items ∧ (
        (∃ r, kindOf r ≠ .empty ∧ t = { s with rx := items }.finish r)
        ∨ (∃ b, s.bcnt + 1 < s.rlen
          ∧ t = { s with rx := items, rbuf := s.rbuf ++ [b], bcnt := s.bcnt + 1, xacc := s.xacc ^^^ b })
        ∨ (∃ b r, kindOf r ≠ .empty ∧ s.bcnt + 1 = s.rlen
          ∧ t = { s with rx := items, rbuf := s.rbuf ++ [b], bcnt := s.bcnt + 1 }.finish r))))) := by
  by_cases hf' : s.fault = true
  rotate_left
  · have hf : s.fault = false := by simpa using hf'
    obtain hp | hp | hp | hp : s.phase = .idle ∨ s.phase = .tx ∨ s.phase = .rxHdr ∨ s.phase = .rxBody := by cases s.phase <;> simp
    · rw [blockStep_still (.inr hp)] at h; cases h; exact .inl rfl
    · rw [blockStep_tx hf hp] at h
      obtain ⟨_, e⟩ | ⟨b', h', hl, ⟨_, e⟩ | ⟨an, h2, h'', e⟩ | ⟨an, h2, h'', e⟩ | ⟨an, h2, e⟩⟩ := txStep_cases s
      all_goals rw [e] at h; cases h
      · exact .inl rfl
      · exact .inr ⟨hf, .inl ⟨hp, b', an, h', hl, .inl ⟨h2, h'', rfl⟩⟩⟩
      · exact .inr ⟨hf, .inl ⟨hp, b', an, h', hl, .inr (.inl ⟨h2, h'', rfl⟩)⟩⟩
      · exact .inr ⟨hf, .inl ⟨hp, b', an, h', hl, .inr (.inr ⟨h2, _, by simp [kindOf], rfl⟩)⟩⟩
    · rw [blockStep_rxHdr hf hp] at h
      obtain ⟨h', e⟩ | ⟨_, h', e⟩ | ⟨hl, it, _, _, h', e⟩ | ⟨hl, b', it, h', ⟨h3, e⟩ | ⟨h3, er, e⟩ | ⟨h3, h0, h1, h4, e⟩⟩ := rxHdrStep_cases s
      all_goals rw [e] at h; cases h
      · exact .inl rfl
      · obtain ⟨x, hx⟩ : ∃ x, s.rx = x :: it := by obtain h' | h' := h' <;> exact ⟨_, h'⟩
        exact .inr ⟨hf, .inr (.inl ⟨hp, hl, x, it, hx, .inl ⟨s.hbuf, s.hcnt, (.error _), by omega, by simp [kindOf], rfl⟩⟩)⟩
      · exact .inr ⟨hf, .inr (.inl ⟨hp, hl, _, it, h', .inr (.inl ⟨b', h3, rfl⟩)⟩)⟩
      · exact .inr ⟨hf, .inr (.inl ⟨hp, hl, _, it, h', .inl ⟨_, 4, (.error _), by omega, by simp [kindOf], rfl⟩⟩)⟩
      · exact .inr ⟨hf, .inr (.inl ⟨hp, hl, _, it, h', .inr (.inr ⟨b', h3, h0, h1, h4, rfl⟩)⟩)⟩
    · rw [blockStep_rxBody hf hp] at h
      obtain ⟨h', e⟩ | ⟨_, h', e⟩ | ⟨hl, it, _, _, h', e⟩ | ⟨hl, b', it, h', ⟨h3, e⟩ | ⟨h3, e⟩⟩ := rxBodyStep_cases s
      all_goals rw [e] at h
      · cases h
      · cases h; exact .inl rfl
      · cases h
        obtain ⟨x, hx⟩ : ∃ x, s.rx = x :: it := by obtain h' | h' := h' <;> exact ⟨_, h'⟩
        exact .inr ⟨hf, .inr (.inr ⟨hp, hl, x, it, hx, .inl ⟨.error _, by simp [kindOf], rfl⟩⟩)⟩
      · cases h
        exact .inr ⟨hf, .inr (.inr ⟨hp, hl, _, it, h', .inr (.inl ⟨b', h3, rfl⟩)⟩)⟩
      · obtain ⟨r, rfl, hk⟩ := complete_next h
        exact .inr ⟨hf, .inr (.inr ⟨hp, hl, _, it, h', .inr (.inr ⟨b', r, hk, h3, rfl⟩)⟩)⟩
  · rw [blockStep_still (.inl hf')] at h; cases h; exact .inl rfl

/-- Every next state of an instruction: the request was not accepted, a fault was raised, a result is there, or an exchange
has begun (60_exceptions.md R236). -/
theorem exec_next {i : Instr} {s t : State} (h : exec i s = .next t) :
    t = s.nextLine
    ∨ (s.fault = false ∧ ∃ c, c ≠ .none ∧ t = { s.nextLine with fault := true, faultCode := c })
    ∨ (s.fault = false ∧ s.phase = .idle ∧ ∃ code r, kindOf r ≠ .empty ∧ t = (s.accepted code).finish r)
    ∨ (s.fault = false ∧ s.phase = .idle ∧ ∃ code c d a, d.length ≤ 65532 ∧ exchangeCode code = true
        ∧ t = { s.accepted code with arg := a }.startExchange c d) := by
  obtain ⟨_, e⟩ | ⟨hf, _, e⟩ | ⟨hf, _, c, hc, e⟩ | ⟨hf, hp, _, _, code, r, hk, e⟩ | ⟨hf, hp, hb, code, c, d, hx, a, e⟩ := exec_cases i s
  all_goals rw [e] at h; cases h
  · exact .inl rfl
  · exact .inr (.inl ⟨hf, _, by simp, rfl⟩)
  · exact .inr (.inl ⟨hf, c, operandFault_ne_none hc, rfl⟩)
  · exact .inr (.inr (.inl ⟨hf, hp, code, r, hk, rfl⟩))
  · obtain ⟨h1, h2⟩ := exchangeOf_fits hx hb
    exact .inr (.inr (.inr ⟨hf, hp, code, c, d, a, h1, h2, rfl⟩))

/-- An accepted exchange operation leaves its code in `op` (60_exceptions.md R236). -/
theorem exec_exchange_op {i : Instr} {code : BitVec 4} {c : Half} {d : List Byte} {s t : State}
    (hx : exchangeOf i = some (code, c, d)) (hb : operandFault i = none) (hf : s.fault = false)
    (hp : s.phase = .idle) (e : exec i s = .next t) : t.op = code := by
  cases i <;> simp only [exchangeOf, Option.some.injEq, Prod.mk.injEq, reduceCtorEq] at hx <;>
    obtain ⟨rfl, rfl, rfl⟩ := hx
  all_goals
    simp only [exec, execXchg, execInfo, execBeep, execBeepNs, execLed, execReadTag, execCmdBeep, execCmdRead,
      execCmdInfo, execCmdLed, execCmdWrite2, execCmdWrite3, Config.maxReqData, Config.maxLen] at e
    simp only [operandFault] at hb
    try rw [hb] at e
    rw [accept_good hf hp] at e
    cases e
    rfl

end Sys2Proof.Machine
end

