-- ==== Sys2Proof/Laws/Run.lean ====
section
/-! SUPPORT. Runs of several steps. -/

namespace Sys2Proof.Machine

/-- A run of no steps. -/
@[simp] theorem run_zero (s : State) : Host.Core.run core 0 s = .next s :=
  Host.Core.run.eq_1 core s

/-- A run that begins with a step to `t` goes on from `t`. -/
theorem run_succ {s t : State} (h : step s = .next t) (n : Nat) :
    Host.Core.run core (n + 1) s = Host.Core.run core n t := by
  have h' : core.step s = .next t := h
  have e := Host.Core.run.eq_2 core s n
  rw [h'] at e
  exact e

/-- A run that reaches a next state began with a step that did. -/
theorem run_succ_next {s t : State} {n : Nat} (h : Host.Core.run core (n + 1) s = .next t) :
    ∃ u, step s = .next u ∧ Host.Core.run core n u = .next t := by
  have e := (Host.Core.run.eq_2 core s n).symm.trans h
  cases hs : core.step s with
  | next u =>
    rw [hs] at e
    exact ⟨u, hs, e⟩
  | fault r =>
    rw [hs] at e
    cases e
  | refused r =>
    rw [hs] at e
    cases e

/-- Two runs one after the other are one run. -/
theorem run_add {s t : State} {m : Nat} (h : Host.Core.run core m s = .next t) (n : Nat) :
    Host.Core.run core (m + n) s = Host.Core.run core n t := by
  induction m generalizing s with
  | zero =>
    rw [run_zero] at h
    cases h
    rw [Nat.zero_add]
  | succ m ih =>
    obtain ⟨u, hs, hu⟩ := run_succ_next h
    rw [Nat.succ_add, run_succ hs]
    exact ih hu

/-- A machine whose step changes nothing stays where it is (log entry 5). -/
theorem run_still {s : State} (h : step s = .next s) (n : Nat) : Host.Core.run core n s = .next s := by
  induction n with
  | zero => exact run_zero s
  | succ n ih => rw [run_succ h, ih]

/-- A run of one step. -/
theorem run_one {s t : State} (h : step s = .next t) : Host.Core.run core 1 s = .next t := by
  rw [run_succ h, run_zero]

/-- A header byte before the fourth (42_frame_parser.md R150), with the host doing nothing. -/
theorem step_header_byte {s : State} {b : Byte} {items : List RxItem} (hf : s.fault = false) (hp : s.phase = .rxHdr)
    (ht : s.todo = []) (hr : s.rx = .byte b :: items) (h : s.hcnt < 3) :
    step s = .next { s with rx := items, hbuf := setHeaderByte s.hbuf s.hcnt b, hcnt := s.hcnt + 1 } := by
  rw [step_of_todo_nil ht, blockStep_rxHdr hf hp]
  obtain ⟨h', e⟩ | ⟨_, h', e⟩ | ⟨_, it, _, _, h', e⟩ | ⟨_, b', it, h', ⟨h3, e⟩ | ⟨h3, er, e⟩ | ⟨h3, h0, h1, hl, e⟩⟩ := rxHdrStep_cases s
  · omega
  · rw [hr] at h'; cases h'
  · rw [hr] at h'; simp at h'
  · rw [hr] at h'; cases h'; exact e
  · omega
  · omega

/-- A run over header bytes before the fourth stores each at its index (42_frame_parser.md R150). -/
theorem run_header (bs : List Byte) (s : State) (rest : List RxItem) (hf : s.fault = false) (hp : s.phase = .rxHdr)
    (ht : s.todo = []) (hn : s.hcnt + bs.length < 4) (hr : s.rx = bs.map .byte ++ rest) :
    Host.Core.run core bs.length s = .next { s with
      rx := rest, hcnt := s.hcnt + bs.length
      hbuf := (bs.zipIdx s.hcnt).foldl (fun h p => setHeaderByte h p.2 p.1) s.hbuf } := by
  induction bs generalizing s with
  | nil =>
    simp only [List.map_nil, List.nil_append] at hr
    cases s; simp only at *; subst hr; simp
  | cons b bs ih =>
    simp only [List.length_cons] at hn
    rw [List.length_cons, run_succ (step_header_byte hf hp ht hr (by omega)), ih]
    · congr 2; simp; omega
    · exact hf
    · exact hp
    · exact ht
    · simp; omega
    · rfl

/-- A run over body bytes before the last stores each and keeps `xacc` the checksum of the body so far (42_frame_parser.md
R152, 40_checksum.md R104). -/
theorem run_body (bs : List Byte) (s : State) (rest : List RxItem) (hf : s.fault = false) (hp : s.phase = .rxBody)
    (ht : s.todo = []) (hl : s.rbuf.length = s.bcnt) (hx : s.xacc = xorAll s.rbuf)
    (hn : s.bcnt + bs.length < s.rlen) (hr : s.rx = bs.map .byte ++ rest) :
    Host.Core.run core bs.length s = .next { s with
      rx := rest, rbuf := s.rbuf ++ bs, bcnt := s.bcnt + bs.length, xacc := xorAll (s.rbuf ++ bs) } := by
  induction bs generalizing s with
  | nil =>
    simp only [List.map_nil, List.nil_append] at hr
    cases s; simp only at *; subst hr; subst hx; simp
  | cons b bs ih =>
    have hs : step s = .next { s with rx := bs.map .byte ++ rest, rbuf := s.rbuf ++ [b], bcnt := s.bcnt + 1, xacc := s.xacc ^^^ b } := by
      rw [step_of_todo_nil ht, blockStep_rxBody hf hp]
      simp at hn
      obtain ⟨h', e⟩ | ⟨_, h', e⟩ | ⟨_, it, _, _, h', e⟩ | ⟨_, b', it, h', ⟨h3, e⟩ | ⟨h3, e⟩⟩ := rxBodyStep_cases s
      · omega
      · rw [hr] at h'; cases h'
      · rw [hr] at h'; simp at h'
      · rw [hr] at h'; simp only [List.map_cons, List.cons_append, List.cons.injEq, RxItem.byte.injEq] at h'
        obtain ⟨rfl, rfl⟩ := h'; exact e
      · omega
    rw [List.length_cons, run_succ hs, ih]
    · congr 2 <;> (simp; try omega)
    · exact hf
    · exact hp
    · exact ht
    · simp [hl]
    · simp [xorAll_append, hx]
    · simp at *; omega
    · rfl

/-- A run over acknowledged bytes sends the rest of the frame, in order, and turns to the response (43_command_status.md
R183). -/
theorem run_transmit (n : Nat) (s : State) (ans : List TxAnswer) (hf : s.fault = false) (hp : s.phase = .tx)
    (ht : s.todo = []) (hn : s.txidx + n + 1 = s.txbuf.length) (ha : s.txAns = List.replicate (n + 1) .ack ++ ans) :
    ∃ t, Host.Core.run core (n + 1) s = .next t
      ∧ t = { s with
          txAns := ans, sent := s.sent ++ s.txbuf.drop s.txidx, txidx := s.txbuf.length, phase := .rxHdr
          hcnt := 0 } := by
  induction n generalizing s with
  | zero =>
    refine ⟨_, run_one ?_, rfl⟩
    rw [step_of_todo_nil ht, blockStep_tx hf hp]
    obtain ⟨h, e⟩ | ⟨b', h, hl, ⟨h', e⟩ | ⟨an, h', h'', e⟩ | ⟨an, h', h'', e⟩ | ⟨an, h', e⟩⟩ := txStep_cases s
    · omega
    · rw [h'] at ha; cases ha
    · rw [e]; simp [List.replicate, h'] at ha; subst ha
      rw [h'']
      have : s.txbuf.drop s.txidx = [b'] := by
        rw [List.drop_eq_getElem_cons hl]; simp [List.getElem?_eq_getElem hl] at h; simp [h]; omega
      rw [this]
    · omega
    · simp [List.replicate, h'] at ha
  | succ n ih =>
    obtain ⟨h, e⟩ | ⟨b', h, hl, ⟨h', e⟩ | ⟨an, h', h'', e⟩ | ⟨an, h', h'', e⟩ | ⟨an, h', e⟩⟩ := txStep_cases s
    · omega
    · rw [h'] at ha; cases ha
    · omega
    · have hs : step s = _ := (step_of_todo_nil ht).trans ((blockStep_tx hf hp).trans e)
      rw [run_succ hs]
      have ha' : an = List.replicate (n+1) .ack ++ ans := by
        rw [h', List.replicate_succ] at ha; exact (List.cons.inj ha).2
      obtain ⟨t, ht1, ht2⟩ := ih { s with txAns := an, sent := s.sent ++ [b'], txidx := s.txidx + 1 } hf hp ht (by simp; omega) ha'
      refine ⟨t, ht1, ?_⟩
      rw [ht2]
      have : s.txbuf.drop s.txidx = b' :: s.txbuf.drop (s.txidx + 1) := by
        rw [List.drop_eq_getElem_cons hl]; simp [List.getElem?_eq_getElem hl] at h; simp [h]
      rw [this, show s.sent ++ b' :: List.drop (s.txidx + 1) s.txbuf = (s.sent ++ [b']) ++ List.drop (s.txidx + 1) s.txbuf by simp]
    · simp [List.replicate, h'] at ha

end Sys2Proof.Machine
end

