-- ==== Sys2Proof/Tests/Slice0.lean ====
section
/-! SUPPORT. Tests of single steps on small states, with expected values from spec/95_test_vectors.md and from the encoding
tables of spec/30_encoding.md; and, for every statement that has hypotheses, a concrete state and operands that meet them. -/

namespace Sys2Proof.Tests

open Sys2Proof Sys2Proof.Machine

/-! ## Which terms are well formed, and what the decoder reads -/

/-- The one check of `WellFormed`: a reserved high code below 0xB is none (30_encoding.md R80). -/
theorem test_ill_formed_refused : WellFormed (.reservedHigh 0xA) = false := by decide

theorem test_well_formed_kept : WellFormed (.reservedHigh 0xB) = true := by decide

/-- The codes of 30_encoding.md R80, bit by bit. -/
theorem test_decode_csum : decode (.record { op := 0b0001, data := [0x5A] }) = .csum [0x5A] := by decide

theorem test_decode_encReq :
    decode (.record { op := 0b0010, cmd := 0b0000000100000011, data := [0x7F] }) = .encReq 0x0103 [0x7F] := by decide

theorem test_decode_encRsp :
    decode (.record { op := 0b0011, cmd := 0b0000000100001100, st := 0b00000001 }) = .encRsp 0x010C 0x01 [] := by decide

theorem test_decode_dec : decode (.record { op := 0b0100, data := [0xAA], term := .err }) = .dec [0xAA] .err := by decide

theorem test_decode_xchg :
    decode (.record { op := 0b0101, cmd := 0b0001001000110100, data := [0xAA] }) = .xchg 0x1234 [0xAA] := by decide

theorem test_decode_info : decode (.record { op := 0b0110, arg := 0x55 }) = .info := by decide

theorem test_decode_beep : decode (.record { op := 0b0111, arg := 0b01111111 }) = .beep 0x7F := by decide

theorem test_decode_beepNs : decode (.record { op := 0b1000, ns := 500000000 }) = .beepNs 500000000 := by decide

theorem test_decode_led : decode (.record { op := 0b1001, arg := 0b00000010 }) = .led 0x02 := by decide

theorem test_decode_readTag : decode (.record { op := 0b1010 }) = .readTag := by decide

theorem test_decode_reserved :
    decode (.record { op := 0b0000 }) = .reservedZero
      ∧ decode (.record { op := 0b1011 }) = .reservedHigh 0xB
      ∧ decode (.record { op := 0b1111 }) = .reservedHigh 0xF := by decide

/-- The two fixed command codes of 30_encoding.md R77, bit by bit. -/
theorem test_decode_wire :
    decode (.wire 0b0000000100000011 [0x7F]) = .cmdBeep [0x7F]
      ∧ decode (.wire 0b0000000100001100 []) = .cmdRead [] := by decide

/-- An open code's row is read as its own, unless the code were one of the two fixed ones (which R6 rules out). -/
theorem test_decode_open_codes :
    decode (.wire Config.cmdInfo []) = .cmdInfo [] ∨ Config.cmdInfo = 0x0103 ∨ Config.cmdInfo = 0x010C := by
  by_cases h : Config.cmdInfo = Config.cmdBeep
  · exact .inr (.inl h)
  · by_cases h' : Config.cmdInfo = Config.cmdRead
    · exact .inr (.inr h')
    · exact .inl (by simp [decode, decodeWire, h, h'])

/-- Words of the opcode table: one byte is an operation code, two bytes are a command code (log entry 12). -/
theorem test_table_words :
    decodeTableWord 8 0x5 = some (.xchg 0x0000 []) ∧ decodeTableWord 8 0xA = some .readTag
      ∧ decodeTableWord 16 0x0103 = some (.cmdBeep []) ∧ decodeTableWord 16 0x010C = some (.cmdRead []) := by decide

/-! ## One step -/

/-- The next state, where there is one. -/
def nextOf : StepOut → Option State
  | .next s => some s
  | .fault _ => none
  | .refused _ => none

/-- The machine after reset with one request before it. -/
def presenting (r : Request) : State := { State.reset with todo := [.present r] }

/-- STATUS and the result after one step. -/
def statusAndResult (s : State) : Option (Half × Result) := (nextOf (step s)).map fun t => (statusWord t, t.res)

/-- V-C3. -/
theorem test_csum : statusAndResult (presenting (.record { op := 0x1, data := [0x01, 0x03, 0x7F] }))
    = some (0x3002, .checksum 0x7D) := by decide

/-- V-E1. -/
theorem test_encReq : statusAndResult (presenting (.record { op := 0x2, cmd := 0x0103, data := [0x7F] }))
    = some (0x2002, .frame [0xAA, 0xDD, 0x00, 0x04, 0x01, 0x03, 0x7F, 0x7D]) := by decide

/-- V-E12. -/
theorem test_encRsp : statusAndResult (presenting (.record { op := 0x3, cmd := 0x0103, st := 0xFF, data := [0x00] }))
    = some (0x2002, .frame [0xAA, 0xDD, 0x00, 0x05, 0x01, 0x03, 0xFF, 0x00, 0xFD]) := by decide

/-- V-D15. -/
theorem test_dec_decoded : statusAndResult (presenting (.record
      { op := 0x4, data := [0xAA, 0xDD, 0x00, 0x04, 0x01, 0x0C, 0x01, 0x0C, 0xFF, 0xFF], term := .eos }))
    = some (0x1002, .decoded 0x010C 0x01 [] 8) := by decide

/-- V-D11. -/
theorem test_dec_error : statusAndResult (presenting (.record
      { op := 0x4, data := [0xAA, 0xDD, 0x00, 0x04, 0x01, 0x0C, 0x01], term := .err }))
    = some (0x9002, .error ⟨1, 2, 3, 0, 0, 3, 2, 7⟩) := by decide

/-- V-X2: the frame that will be sent, and STATUS after the acceptance. -/
theorem test_xchg : (nextOf (step (presenting (.record { op := 0x5, cmd := 0x1234, data := [0xAA] })))).map
      (fun t => (statusWord t, t.txbuf)) = some (0x0011, [0xAA, 0xDD, 0x00, 0x04, 0x12, 0x34, 0xAA, 0x8C]) := by decide

/-- V-I1, as far as it does not depend on the open code: `op` and the length of the frame. -/
theorem test_info : (nextOf (step (presenting (.record { op := 0x6 })))).map
      (fun t => (statusWord t, t.op, t.txbuf.length)) = some (0x0011, 0x6, 7) := by decide

/-- V-B3. -/
theorem test_beep : (nextOf (step (presenting (.record { op := 0x7, arg := 0xFF })))).map
      (fun t => (t.arg, t.txbuf)) = some (0xFF, [0xAA, 0xDD, 0x00, 0x04, 0x01, 0x03, 0xFF, 0xFD]) := by decide

/-- V-BN8. -/
theorem test_beepNs : (nextOf (step (presenting (.record { op := 0x8, ns := 500000000 })))).map
      (fun t => (t.arg, t.txbuf)) = some (0x80, [0xAA, 0xDD, 0x00, 0x04, 0x01, 0x03, 0x80, 0x82]) := by decide

/-- V-BN4, V-BN5, V-BN6, V-BN7, V-BN9, V-BN11, V-BN17. -/
theorem test_beep_units :
    beepUnits 1960784 = 1 ∧ beepUnits 1960785 = 1 ∧ beepUnits 5882352 = 1 ∧ beepUnits 5882353 = 2
      ∧ beepUnits 498039215 = 127 ∧ beepUnits 300000000 = 77 ∧ beepUnits 18446744073709551615 = 255 := by decide

/-- V-L4. -/
theorem test_led_refused : (nextOf (step (presenting (.record { op := 0x9, arg := 0x03 })))).map
      (fun t => (statusWord t, t.txbuf)) = some (0x0404, []) := by decide

/-- V-L1, as far as it does not depend on the open code. -/
theorem test_led : (nextOf (step (presenting (.record { op := 0x9, arg := 0x02 })))).map
      (fun t => (statusWord t, t.arg, byteAt t.txbuf 6)) = some (0x0011, 0x02, 0x02) := by decide

/-- V-RT1's request frame. -/
theorem test_readTag : (nextOf (step (presenting (.record { op := 0xA })))).map
      (fun t => (t.cmd, t.txbuf)) = some (0x010C, [0xAA, 0xDD, 0x00, 0x03, 0x01, 0x0C, 0x0D]) := by decide

/-- V-F1 and V-F2. -/
theorem test_reserved :
    (nextOf (step (presenting (.record { op := 0x0 })))).map statusWord = some 0x0104
      ∧ (nextOf (step (presenting (.record { op := 0xB })))).map statusWord = some 0x0104 := by decide

/-- A raw command of the table is the raw exchange of its code (30_encoding.md R84, R87). -/
theorem test_wire : (nextOf (step (presenting (.wire 0x0103 [0x7F])))).map
      (fun t => (t.op, t.cmd, t.txbuf)) = some (0x5, 0x0103, [0xAA, 0xDD, 0x00, 0x04, 0x01, 0x03, 0x7F, 0x7D]) := by decide

/-- V-F7. -/
theorem test_read_empty_result :
    (nextOf (step { State.reset with todo := [.readResult] })).map statusWord = some 0x0504 := by decide

/-- The word placed for the host runs as the next step. -/
theorem test_withFetchWord : (nextOf (step (State.reset.withFetchWord 16 0x010C))).map
      (fun t => (t.phase, t.op, t.cmd)) = some (.tx, 0x5, 0x010C) := by decide

/-! ## States that the witnesses use -/

/-- V-X1 before step 7, as a `READ_TAG`: six bytes of the frame sent, the last about to be answered. -/
def sending : State :=
  { State.reset with
    phase := .tx, op := 0xA, cmd := 0x010C, txbuf := [0xAA, 0xDD, 0x00, 0x03, 0x01, 0x0C, 0x0D], txidx := 6
    sent := [0xAA, 0xDD, 0x00, 0x03, 0x01, 0x0C], txAns := [.ack] }

/-- V-X1 before step 8, with the response of V-RT1 to come. -/
def receiving : State :=
  { sending with
    phase := .rxHdr, txidx := 7, hcnt := 0, txAns := [], sent := sending.txbuf
    rx := [.byte 0xAA, .byte 0xDD, .byte 0x00, .byte 0x04, .byte 0x01, .byte 0x0C, .byte 0x01, .byte 0x0C] }

/-- V-X1 before step 11: the fourth header byte is next. -/
def fourthByte : State :=
  { receiving with hbuf := ⟨0xAA, 0xDD, 0x00, 0x00⟩, hcnt := 3, rx := receiving.rx.drop 3 }

/-- V-X1 before step 15: the checksum byte is next. -/
def lastByte : State :=
  { receiving with
    phase := .rxBody, hbuf := ⟨0xAA, 0xDD, 0x00, 0x04⟩, hcnt := 4, rlen := 4, bcnt := 3
    rbuf := [0x01, 0x0C, 0x01], xacc := 0x0C, rx := receiving.rx.drop 7 }

/-- V-F7 after its read: a faulted block. -/
def faulted : State := { State.reset with fault := true, faultCode := .noResult }

/-- V-X1 step 7 (STATUS 0x0021). -/
theorem test_last_ack : (nextOf (step sending)).map (fun t => (statusWord t, t.txidx)) = some (0x0021, 7) := by decide

/-- V-X1 step 11 (STATUS 0x0031). -/
theorem test_header_done : (nextOf (step fourthByte)).map (fun t => (statusWord t, t.rlen, t.bcnt))
    = some (0x0031, 4, 0) := by decide

/-- V-RT1 (STATUS 0x8002). -/
theorem test_no_tag : statusAndResult lastByte = some (0x8002, .noTag) := by decide

/-- V-X3's fourth answer, at `txidx` 6. -/
theorem test_rejected : statusAndResult { sending with txAns := [.err] }
    = some (0x9002, .error ⟨1, 1, 1, 0, 0, 6, 0, 0⟩) := by decide

/-- V-F3: a request while busy. -/
theorem test_overlap : (nextOf (step { sending with txidx := 2, todo := [.present (encode (.csum []))] })).map
      (fun t => (statusWord t, t.txidx)) = some (0x0215, 2) := by decide

/-- V-R2: reset of the frozen block. -/
theorem test_reset : (nextOf (step { sending with fault := true, faultCode := .hostOverlap, todo := [.reset] })).map
      (fun t => (statusWord t, t.sent)) = some (0x0000, sending.sent) := by decide

/-! ## Hypotheses met -/

/-- Bytes as items of the receive stream. -/
def bytes (s : List Byte) : List RxItem := s.map .byte

/-- A data sequence of a given length. -/
theorem zeros_length (n : Nat) : (List.replicate n (0x00 : Byte)).length = n := List.length_replicate

theorem meets_StepRunsThePresentedRequest :
    (presenting (encode .readTag)).todo = .present (encode .readTag) :: [] := by decide

/-- Seven codes cannot all be among six. -/
theorem meets_RawCommandsDecodeByWireCode :
    ∃ c : Half, c ∉ [0x0103, 0x010C, Config.cmdInfo, Config.cmdLed, Config.cmdWrite2, Config.cmdWrite3] := by
  by_contra h
  push Not at h
  have hs : ([0, 1, 2, 3, 4, 5, 6] : List Half) ⊆
      [0x0103, 0x010C, Config.cmdInfo, Config.cmdLed, Config.cmdWrite2, Config.cmdWrite3] := fun c _ => h c
  have hl := (List.Nodup.subperm (by decide) hs).length_le
  simp at hl

theorem meets_DecodeInvertsEncode : WellFormed (.reservedHigh 0xB) = true ∧ WellFormed (.beepNs 18446744073709551615) = true := by
  decide

/-- The largest durations that fit the field. -/
theorem meets_PseudoOperationsExpand :
    (18446744073709000000 : BitVec 64).toNat = 18446744073709 * 1000000
      ∧ (18446744073000000000 : BitVec 64).toNat = 18446744073 * 1000000000 := by decide

/-- A duration that does not fit cannot be presented (log entry 14). -/
theorem test_long_duration : Pseudo.expand (.beepMs 18446744073710) = none := by decide

theorem meets_ResetActsAtAnyTimeAndLeavesTheStreams :
    ({ sending with fault := true, todo := [.reset] } : State).todo = .reset :: [] := by decide

/-- A request for each branch, at the boundary where the branch has one. -/
theorem meets_AcceptanceChecksInOrder :
    faulted.fault = true ∧ (sending.fault = false ∧ sending.phase ≠ .idle)
      ∧ State.reset.fault = false ∧ State.reset.phase = .idle
      ∧ (0xB ≤ (0xB : BitVec 4).toNat ∧ ¬ 0xB ≤ (0xA : BitVec 4).toNat)
      ∧ (65532 < (List.replicate 65533 (0x00 : Byte)).length ∧ ¬ 65532 < (List.replicate 65532 (0x00 : Byte)).length)
      ∧ (65531 < (List.replicate 65532 (0x00 : Byte)).length ∧ ¬ 65531 < (List.replicate 65531 (0x00 : Byte)).length)
      ∧ (0x02 < (0x03 : Byte).toNat ∧ ¬ 0x02 < (0x02 : Byte).toNat) := by
  simp only [zeros_length]
  decide

theorem meets_FaultedBlockAcceptsNothing : faulted.fault = true := by decide

theorem meets_RequestWhileBusyRaisesHostOverlap : sending.fault = false ∧ sending.phase ≠ .idle := by decide

/-- Also for every other statement whose hypotheses are a faultless idle block. -/
theorem meets_ReservedCodesRaiseIllegalOp : State.reset.fault = false ∧ State.reset.phase = .idle := by decide

/-- A one-step operation and an exchange operation. -/
theorem meets_AcceptedOperationsCompleteOrStartTransmitting :
    State.reset.fault = false ∧ State.reset.phase = .idle
      ∧ (operandFault (.csum []) = none ∧ exchangeOf (.csum []) = none)
      ∧ (operandFault (.led 0x02) = none ∧ exchangeOf (.led 0x02) ≠ none) := by decide

theorem meets_CsumGivesTheChecksum : State.reset.fault = false ∧ State.reset.phase = .idle := by decide

/-- V-E7 and V-E8. -/
theorem meets_EncReqGivesTheRequestFrame :
    State.reset.fault = false ∧ State.reset.phase = .idle
      ∧ (List.replicate 65532 (0x00 : Byte)).length ≤ 65532 ∧ 65532 < (List.replicate 65533 (0x00 : Byte)).length := by
  simp only [zeros_length]
  decide

/-- V-E13 and V-E14. -/
theorem meets_EncRspGivesTheResponseFrame :
    State.reset.fault = false ∧ State.reset.phase = .idle
      ∧ (List.replicate 65531 (0x00 : Byte)).length ≤ 65531 ∧ 65531 < (List.replicate 65532 (0x00 : Byte)).length := by
  simp only [zeros_length]
  decide

theorem meets_DecGivesTheParseOfItsBytes : State.reset.fault = false ∧ State.reset.phase = .idle := by decide

/-- The largest data an exchange sends, and V-X8. -/
theorem meets_XchgIsAccepted :
    State.reset.fault = false ∧ State.reset.phase = .idle
      ∧ (List.replicate 65532 (0x00 : Byte)).length ≤ 65532 ∧ 65532 < (List.replicate 65533 (0x00 : Byte)).length := by
  simp only [zeros_length]
  decide

theorem meets_InfoIsAccepted : State.reset.fault = false ∧ State.reset.phase = .idle := by decide

theorem meets_BeepIsAccepted : State.reset.fault = false ∧ State.reset.phase = .idle := by decide

theorem meets_BeepNsIsAccepted : State.reset.fault = false ∧ State.reset.phase = .idle := by decide

/-- The last mode that is taken and the first that is not. -/
theorem meets_LedIsAcceptedUpToGreen :
    State.reset.fault = false ∧ State.reset.phase = .idle ∧ (0x02 : Byte).toNat ≤ 2 ∧ 2 < (0x03 : Byte).toNat := by decide

theorem meets_ReadTagIsAccepted : State.reset.fault = false ∧ State.reset.phase = .idle := by decide

/-- Each of the six, at the largest data and at one byte more. -/
theorem meets_WireCommandsAreAcceptedAsRawExchanges (data : List Byte) :
    let pairs := [(Instr.cmdBeep data, (0x0103 : Half)), (.cmdRead data, 0x010C), (.cmdInfo data, Config.cmdInfo),
      (.cmdLed data, Config.cmdLed), (.cmdWrite2 data, Config.cmdWrite2), (.cmdWrite3 data, Config.cmdWrite3)]
    State.reset.fault = false ∧ State.reset.phase = .idle
      ∧ (.cmdBeep data, 0x0103) ∈ pairs ∧ (.cmdRead data, 0x010C) ∈ pairs ∧ (.cmdInfo data, Config.cmdInfo) ∈ pairs
      ∧ (.cmdLed data, Config.cmdLed) ∈ pairs ∧ (.cmdWrite2 data, Config.cmdWrite2) ∈ pairs
      ∧ (.cmdWrite3 data, Config.cmdWrite3) ∈ pairs
      ∧ (List.replicate 65532 (0x00 : Byte)).length ≤ 65532 ∧ 65532 < (List.replicate 65533 (0x00 : Byte)).length := by
  simp only [zeros_length]
  refine ⟨rfl, rfl, by simp, by simp, by simp, by simp, by simp, by simp, by decide, by decide⟩

theorem meets_ChecksumIsBitwiseParityInAnyOrder : [(0x01 : Byte), 0x0C].Perm [0x0C, 0x01] := by decide

/-- W5's second instance, a single bit; and two bytes flipped with an odd count in bit 0 only. -/
theorem meets_OddBitFlipsFailWithIntegrityError :
    be16 0x00 0x04 = [(0x01 : Byte), 0x0C, 0x01, 0x0C].length ∧ 4 ≤ [(0x01 : Byte), 0x0C, 0x01, 0x0C].length
      ∧ xorAll [0x01, 0x0C, 0x01, 0x0C] = 0x00
      ∧ [(0x80 : Byte), 0x00, 0x00, 0x00].length = [(0x01 : Byte), 0x0C, 0x01, 0x0C].length
      ∧ [(0x80 : Byte), 0x00, 0x00, 0x00].countP (fun b => b.getLsbD 7) % 2 = 1
      ∧ [(0x00 : Byte), 0x02, 0x00, 0x03].length = [(0x01 : Byte), 0x0C, 0x01, 0x0C].length
      ∧ [(0x00 : Byte), 0x02, 0x00, 0x03].countP (fun b => b.getLsbD 0) % 2 = 1 := by decide

/-- The largest frames. -/
theorem meets_FrameLayouts :
    (List.replicate 65532 (0x00 : Byte)).length ≤ 65532 ∧ (List.replicate 65531 (0x00 : Byte)).length ≤ 65531 := by
  simp only [zeros_length]
  decide

theorem meets_EncodedFramesAreValid :
    (List.replicate 65532 (0x00 : Byte)).length ≤ 65532 ∧ (List.replicate 65531 (0x00 : Byte)).length ≤ 65531 := by
  simp only [zeros_length]
  decide

/-- V-D1 and V-D2. -/
theorem meets_ShortHeaderIsAFramingError : ([] : List Byte).length < 4 ∧ [(0xAA : Byte), 0xDD, 0x00].length < 4 := by decide

/-- V-D4 and V-D5. -/
theorem meets_WrongPrefixIsAFramingError :
    ((0xAB : Byte) ≠ hi Config.framePrefix ∨ (0xDD : Byte) ≠ lo Config.framePrefix)
      ∧ ((0xAA : Byte) ≠ hi Config.framePrefix ∨ (0xDC : Byte) ≠ lo Config.framePrefix) := by decide

/-- V-D7 and V-D6 below the bound, V-D14 at it. -/
theorem meets_DeclaredLengthBelowFourIsAFramingError :
    be16 0x00 0x00 < 4 ∧ be16 0x00 0x03 < 4 ∧ 4 ≤ be16 0x00 0x04
      ∧ parse ([hi Config.framePrefix, lo Config.framePrefix, 0x00, 0x04].map .byte
        ++ [.byte 0x01, .byte 0x0C, .byte 0x01, .byte 0x0C]) = some (.ok 0x010C 0x01 [], 8, []) := by decide

/-- V-D14 with its whole body; V-D9 and V-D10. -/
theorem meets_BodyIsReadWholeOrIsATransportError :
    4 ≤ be16 0x00 0x04 ∧ [(0x01 : Byte), 0x0C, 0x01, 0x0C].length = be16 0x00 0x04
      ∧ ([] : List Byte).length < be16 0x00 0x04 ∧ [(0x01 : Byte), 0x0C, 0x01].length < be16 0x00 0x04 := by decide

/-- V-D14 and V-D12. -/
theorem meets_WholeBodyIsCheckedAndSplitIntoFields :
    be16 0x00 0x04 = 4 + ([] : List Byte).length ∧ xorAll ([0x01, 0x0C, 0x01] ++ []) = 0x0C
      ∧ xorAll ([0x01, 0x0C, 0x01] ++ []) ≠ 0x0D := by decide

/-- Every outcome: V-D14, V-D12, V-D4, V-D7, V-D2, V-D10, V-D11, with an item left over. -/
theorem meets_ParserConsumesExactlyWhatItReads :
    parse (bytes [0xAA, 0xDD, 0x00, 0x04, 0x01, 0x0C, 0x01, 0x0C, 0xFF]) = some (.ok 0x010C 0x01 [], 8, [.byte 0xFF])
      ∧ parse (bytes [0xAA, 0xDD, 0x00, 0x04, 0x01, 0x0C, 0x01, 0x0D, 0xFF])
        = some (.error (.integrity 0x0C 0x0D), 8, [.byte 0xFF])
      ∧ parse (bytes [0xAB, 0xDD, 0x00, 0x04, 0xFF]) = some (.error (.badPrefix 0xAB 0xDD), 4, [.byte 0xFF])
      ∧ parse (bytes [0xAA, 0xDD, 0x00, 0x00, 0xFF]) = some (.error (.badLength 0), 4, [.byte 0xFF])
      ∧ parse (bytes [0xAA, 0xDD, 0x00] ++ [.err, .eos]) = some (.error (.shortHeader 3 .err), 3, [.eos])
      ∧ parse (bytes [0xAA, 0xDD, 0x00, 0x04, 0x01, 0x0C, 0x01] ++ [.eos, .err]) = some (.error (.readEos 3), 7, [.err])
      ∧ parse (bytes [0xAA, 0xDD, 0x00, 0x04, 0x01, 0x0C, 0x01] ++ [.err, .eos])
        = some (.error (.readErr 3), 7, [.eos]) :=
  ⟨by decide, by decide, by decide, by decide, by decide, by decide, by decide⟩

theorem meets_ParserInvertsResponseEncoder : (List.replicate 65531 (0x00 : Byte)).length ≤ 65531 := by
  simp only [zeros_length]
  decide

theorem meets_DecFramingErrorsAreExactlyThreeCases : State.reset.fault = false ∧ State.reset.phase = .idle := by decide

/-- The last byte of the frame. -/
theorem meets_AcknowledgedByteAdvancesTheTransmitter :
    sending.fault = false ∧ sending.phase = .tx ∧ sending.txbuf[sending.txidx]? = some 0x0D
      ∧ sending.txAns = .ack :: [] := by decide

theorem meets_RejectedByteEndsTheExchange :
    let s : State := { sending with txAns := [.err] }
    s.fault = false ∧ s.phase = .tx ∧ s.txidx < s.txbuf.length ∧ s.txAns = .err :: [] := by decide

/-- The third header byte, the fourth, and the header's last byte missing. -/
theorem meets_HeaderStepFollowsTheItem :
    (let s : State := { fourthByte with hcnt := 2 };
      s.fault = false ∧ s.phase = .rxHdr ∧ s.hcnt < 3 ∧ s.rx = .byte 0x04 :: s.rx.tail)
    ∧ (fourthByte.fault = false ∧ fourthByte.phase = .rxHdr ∧ fourthByte.hcnt = 3
      ∧ fourthByte.rx = .byte 0x04 :: fourthByte.rx.tail)
    ∧ (let s : State := { fourthByte with rx := [.eos] };
      s.fault = false ∧ s.phase = .rxHdr ∧ s.hcnt < 4 ∧ s.rx = .eos :: [])
    ∧ (let s : State := { fourthByte with rx := [.err] };
      s.fault = false ∧ s.phase = .rxHdr ∧ s.hcnt < 4 ∧ s.rx = .err :: []) := by decide

/-- The byte before the last; the last with a mismatch; the last with a match; the last missing. -/
theorem meets_BodyStepFollowsTheItem :
    (let s : State := { lastByte with bcnt := 2 };
      s.fault = false ∧ s.phase = .rxBody ∧ s.rx = .byte 0x0C :: [] ∧ s.bcnt + 1 < s.rlen)
    ∧ (let s : State := { lastByte with rx := [.byte 0x0D] };
      s.fault = false ∧ s.phase = .rxBody ∧ s.rx = .byte 0x0D :: [] ∧ s.bcnt + 1 = s.rlen ∧ s.xacc ≠ 0x0D)
    ∧ (lastByte.fault = false ∧ lastByte.phase = .rxBody ∧ lastByte.rx = .byte 0x0C :: []
      ∧ lastByte.bcnt + 1 = lastByte.rlen ∧ lastByte.xacc = 0x0C
      ∧ interpret lastByte.op (byteAt (lastByte.rbuf ++ [0x0C]) 2) (slice (lastByte.rbuf ++ [0x0C]) 3 (lastByte.rlen - 1))
          (4 + lastByte.rlen) = some .noTag)
    ∧ (let s : State := { lastByte with rx := [.eos] };
      s.fault = false ∧ s.phase = .rxBody ∧ s.bcnt < s.rlen ∧ s.rx = .eos :: [])
    ∧ (let s : State := { lastByte with rx := [.err] };
      s.fault = false ∧ s.phase = .rxBody ∧ s.bcnt < s.rlen ∧ s.rx = .err :: []) := by decide

/-- Faulted, idle, and waiting in each busy phase. -/
theorem meets_WaitingChangesNothing :
    faulted.fault = true ∧ State.reset.phase = .idle
      ∧ (let s : State := { sending with txAns := [] };
        s.phase = .tx ∧ s.txidx < s.txbuf.length ∧ s.txAns = [])
      ∧ (let s : State := { fourthByte with rx := [] };
        s.phase = .rxHdr ∧ s.hcnt < 4 ∧ s.rx = [])
      ∧ (let s : State := { lastByte with rx := [] };
        s.phase = .rxBody ∧ s.bcnt < s.rlen ∧ s.rx = []) := by decide

/-- The least status that is an error for each operation. -/
theorem meets_StatusIsInterpretedByTheTable :
    (0x01 : Byte) ≠ 0x00 ∧ (0x6 : BitVec 4) ∈ ([0x6, 0x7, 0x8, 0x9] : List (BitVec 4))
      ∧ (0x02 : Byte) ≠ 0x00 ∧ (0x02 : Byte) ≠ 0x01 := by decide

theorem meets_SequencerComputesParse :
    receiving.fault = false ∧ receiving.phase = .rxHdr ∧ receiving.hcnt = 0 ∧ receiving.todo = []
      ∧ exchangeCode receiving.op = true ∧ parse receiving.rx = some (.ok 0x010C 0x01 [], 8, []) := by decide

theorem meets_SequencerWaitsWhileTheStreamOffersNothing :
    let s : State := { receiving with rx := [.byte 0xAA, .byte 0xDD, .byte 0x00, .byte 0x04, .byte 0x01] }
    s.fault = false ∧ s.phase = .rxHdr ∧ s.hcnt = 0 ∧ s.todo = [] ∧ s.resValid = false ∧ parse s.rx = none := by decide

theorem meets_ExchangeIsOneRoundTrip :
    let s : State := { State.reset with
      todo := [.present (encode .readTag)], txAns := List.replicate 7 .ack, rx := receiving.rx }
    exchangeOf (decode (encode .readTag)) = some (0xA, 0x010C, []) ∧ operandFault (decode (encode .readTag)) = none
      ∧ s.fault = false ∧ s.phase = .idle ∧ s.todo = [.present (encode .readTag)]
      ∧ s.txAns = List.replicate (7 + ([] : List Byte).length) .ack ++ []
      ∧ parse s.rx = some (.ok 0x010C 0x01 [], 8, []) := by decide

/-- The streams of V-RT1 (`st` 0x01), V-RT2 (0x00) and V-RT6 (0x02), and of every other status. -/
theorem meets_ReadTagReturnsTagOrNoTag (st : Byte) :
    let s : State := { State.reset with
      todo := [.present (encode .readTag)], txAns := List.replicate 7 .ack
      rx := (encodeRsp 0x010C st []).map .byte ++ [] }
    ([] : List Byte).length ≤ 65531 ∧ s.fault = false ∧ s.phase = .idle ∧ s.todo = [.present (encode .readTag)]
      ∧ s.txAns = List.replicate 7 .ack ∧ s.rx = (encodeRsp 0x010C st []).map .byte ++ [] :=
  ⟨by decide, rfl, rfl, rfl, rfl, rfl⟩

/-- Both ends of each range. -/
theorem meets_BeepUnitsMeetTheTestProperty :
    1 ≤ (1 : BitVec 64).toNat ∧ (1 : BitVec 64).toNat ≤ 3921568 ∧ (3921568 : BitVec 64).toNat ≤ 3921568
      ∧ 1000000000 ≤ (1000000000 : BitVec 64).toNat
      ∧ 1960785 ≤ (1960785 : BitVec 64).toNat ∧ (1000000000 : BitVec 64).toNat ≤ 1000000000 := by decide

theorem meets_StatusReadGivesEveryField :
    ({ sending with todo := [.readStatus] } : State).todo = .readStatus :: [] := by decide

theorem meets_ResultReadNeedsAResult :
    (let s : State := { State.reset with todo := [.readResult], resValid := true, res := .done };
      s.todo = .readResult :: [] ∧ s.resValid = true)
    ∧ (let s : State := { State.reset with todo := [.readResult] };
      s.todo = .readResult :: [] ∧ s.resValid = false ∧ s.fault = false)
    ∧ (let s : State := { faulted with todo := [.readResult] };
      s.todo = .readResult :: [] ∧ s.resValid = false ∧ s.fault = true) := by decide

/-- The three waits. -/
theorem meets_ScriptLinesWaitAndMove :
    (let s : State := { faulted with todo := [.await] };
      s.todo = .await :: [] ∧ s.fault = true)
    ∧ (let s : State := { State.reset with todo := [.await], resValid := true, res := .done };
      s.todo = .await :: [] ∧ s.fault = false ∧ s.resValid = true)
    ∧ (let s : State := { sending with todo := [.await] };
      s.todo = .await :: [] ∧ s.fault = false ∧ s.resValid = false) := by decide

/-- No line, an idle line, a halt and a label; a jump with its label and one without. -/
theorem meets_ScriptLinesWaitAndMove_lines :
    State.reset.todo = []
    ∧ ({ sending with todo := [.idle] } : State).todo = .idle :: []
    ∧ ({ State.reset with todo := [.halt] } : State).todo = .halt :: []
    ∧ ({ State.reset with todo := [.label 1] } : State).todo = .label 1 :: []
    ∧ (let s : State := { State.reset with todo := [.goto 1], script := [.goto 1, .label 1, .halt] };
      s.script = [.goto 1] ++ .label 1 :: [.halt] ∧ HostLine.label 1 ∉ [HostLine.goto 1] ∧ s.todo = .goto 1 :: [])
    ∧ (let s : State := { State.reset with todo := [.goto 1] };
      HostLine.label 1 ∉ s.script ∧ s.todo = .goto 1 :: []) := by decide

/-- An `if` line with STATUS reads alone, and with STATUS read twice since a result, of the kind and of another, with the
label and without. -/
theorem meets_ScriptLinesWaitAndMove_ifKind :
    let s : State := { State.reset with
      todo := [.ifKind .noTag 1], script := [.halt, .label 1], reads := [.status 0x8002, .status 0x0011, .result .noTag] }
    s.todo = .ifKind .noTag 1 :: []
      ∧ ({ s with reads := [.status 0x0011] } : State).reads = [(0x0011 : Half)].map .status
      ∧ s.reads = [(0x8002 : Half), 0x0011].map .status ++ .result .noTag :: []
      ∧ kindOf .noTag = .noTag ∧ kindOf .done ≠ .noTag
      ∧ s.script = [.halt] ++ .label 1 :: [] ∧ HostLine.label 1 ∉ [HostLine.halt]
      ∧ HostLine.label 1 ∉ ({ s with script := [] } : State).script := by decide

/-- R88: an `if` line looks past STATUS reads at the last result read. -/
theorem test_ifKind_skips_status : (nextOf (step { State.reset with
      todo := [.ifKind .noTag 1], script := [.label 1, .halt], reads := [.status 0x8002, .result .noTag] })).map State.todo
    = some [.halt] := by decide

theorem meets_FaultedBlockTakesNoStep :
    faulted.fault = true ∧ faulted.todo.head? ≠ some .reset ∧ nextOf (step faulted) = some faulted := by decide

/-- A step that moves a byte out, and one that moves an item in. -/
theorem meets_StreamsMoveOneItemInTheirPhase :
    (nextOf (step sending)).isSome = true ∧ (nextOf (step fourthByte)).isSome = true := by decide

/-- Every change of phase: into TX, into RX_HDR, into RX_BODY, back to IDLE. -/
theorem meets_PhasesChangeOnlyAsTheRulesSay :
    (presenting (encode .readTag)).fault = false ∧ (presenting (encode .readTag)).todo.head? ≠ some .reset
      ∧ (nextOf (step (presenting (encode .readTag)))).map State.phase = some .tx
      ∧ (nextOf (step sending)).map State.phase = some .rxHdr
      ∧ (nextOf (step fourthByte)).map State.phase = some .rxBody
      ∧ (nextOf (step lastByte)).map State.phase = some .idle := by decide

/-- A fault set, a fault cleared, a fault kept, a result won by an exchange and by a one-step operation, and a result
dropped. -/
theorem meets_FlagsChangeOnlyWhereTheRulesSay :
    (nextOf (step { State.reset with todo := [.readResult] })).map State.fault = some true
      ∧ (nextOf (step { faulted with todo := [.reset] })).map State.fault = some false
      ∧ (nextOf (step { faulted with todo := [.readResult] })).map State.faultCode = some .noResult
      ∧ (lastByte.resValid = false ∧ (nextOf (step lastByte)).map State.resValid = some true)
      ∧ ((presenting (encode (.csum []))).resValid = false
        ∧ (nextOf (step (presenting (encode (.csum []))))).map State.resValid = some true)
      ∧ (nextOf (step { presenting (encode .readTag) with resValid := true, res := .done })).map State.resValid
          = some false := by decide

/-- A state of the invariant in each busy phase, with a next state. -/
theorem meets_StepKeepsInvariant :
    sending.Inv ∧ fourthByte.Inv ∧ lastByte.Inv ∧ (nextOf (step sending)).isSome = true :=
  ⟨by decide, by decide, by decide, by decide⟩

theorem meets_InvariantStatesNeverStop : sending.Inv ∧ ({ State.reset with todo := [.goto 1] } : State).Inv :=
  ⟨by decide, by decide⟩

/-- Two states that differ in registers without a value. -/
theorem meets_RegistersWithoutValueAreNeverRead :
    sending.Agree { sending with arg := 0x55, hbuf := ⟨1, 2, 3, 4⟩, rlen := 9, res := .done, draws := 7 } := by decide

end Sys2Proof.Tests
end

section
/-! PROOF. The command codes and the decoding of raw commands (00_scope.md R6; 30_encoding.md R77, R84). -/

namespace Sys2Proof

/-- The open codes meet the premise of 00_scope.md R6, by their construction (log entry 8). -/
theorem Config.openCodes_distinct : Config.openCodes.Distinct := by
  unfold Config.openCodes
  split
  case isTrue h => exact h
  case isFalse => decide

/-- Settles O5: R6's premise, held by the construction of the open codes. -/
theorem commandCodesArePairwiseDistinct : Obligations.CommandCodesArePairwiseDistinct :=
  Config.openCodes_distinct

/-- Each command code differs from every code that `decodeWire` tests before it (00_scope.md R6). -/
theorem Config.code_notMem_codesTestedBefore :
    Config.cmdRead ∉ [Config.cmdBeep]
    ∧ Config.cmdInfo ∉ [Config.cmdBeep, Config.cmdRead]
    ∧ Config.cmdLed ∉ [Config.cmdBeep, Config.cmdRead, Config.cmdInfo]
    ∧ Config.cmdWrite2 ∉ [Config.cmdBeep, Config.cmdRead, Config.cmdInfo, Config.cmdLed]
    ∧ Config.cmdWrite3 ∉ [Config.cmdBeep, Config.cmdRead, Config.cmdInfo, Config.cmdLed, Config.cmdWrite2] := by
  have h := commandCodesArePairwiseDistinct
  simp only [Obligations.CommandCodesArePairwiseDistinct, List.pairwise_cons, List.mem_cons] at h
  grind

@[simp] theorem decode_wire_cmdBeep (data : List Byte) : decode (.wire Config.cmdBeep data) = .cmdBeep data := by
  simp [decode, decodeWire]

@[simp] theorem decode_wire_cmdRead (data : List Byte) : decode (.wire Config.cmdRead data) = .cmdRead data := by
  obtain ⟨hne, -⟩ := Config.code_notMem_codesTestedBefore
  simp_all [decode, decodeWire]

@[simp] theorem decode_wire_cmdInfo (data : List Byte) : decode (.wire Config.cmdInfo data) = .cmdInfo data := by
  obtain ⟨-, hne, -⟩ := Config.code_notMem_codesTestedBefore
  simp_all [decode, decodeWire]

@[simp] theorem decode_wire_cmdLed (data : List Byte) : decode (.wire Config.cmdLed data) = .cmdLed data := by
  obtain ⟨-, -, hne, -⟩ := Config.code_notMem_codesTestedBefore
  simp_all [decode, decodeWire]

@[simp] theorem decode_wire_cmdWrite2 (data : List Byte) :
    decode (.wire Config.cmdWrite2 data) = .cmdWrite2 data := by
  obtain ⟨-, -, -, hne, -⟩ := Config.code_notMem_codesTestedBefore
  simp_all [decode, decodeWire]

@[simp] theorem decode_wire_cmdWrite3 (data : List Byte) :
    decode (.wire Config.cmdWrite3 data) = .cmdWrite3 data := by
  obtain ⟨-, -, -, -, hne⟩ := Config.code_notMem_codesTestedBefore
  simp_all [decode, decodeWire]

/-- A code outside the six is the raw exchange of that code (30_encoding.md R84). -/
theorem decode_wire_of_notMem {c : Half}
    (h : c ∉ [Config.cmdBeep, Config.cmdRead, Config.cmdInfo, Config.cmdLed, Config.cmdWrite2, Config.cmdWrite3])
    (data : List Byte) : decode (.wire c data) = .xchg c data := by
  simp_all [decode, decodeWire]

/-- Settles O3: a code fails every test before its own, and a code outside the six fails them all. -/
theorem rawCommandsDecodeByWireCode : Obligations.RawCommandsDecodeByWireCode := fun data =>
  ⟨decode_wire_cmdBeep data, decode_wire_cmdRead data, decode_wire_cmdInfo data, decode_wire_cmdLed data,
    decode_wire_cmdWrite2 data, decode_wire_cmdWrite3 data, fun _ h => decode_wire_of_notMem h data⟩

end Sys2Proof
end

section
/-! PROOF. The invariant of the machine is kept by every step: one lemma for each way the state can change, then the block's
step, an instruction, and the whole machine by what each can do (Sys2Proof/Laws/Step.lean). -/

namespace Sys2Proof.Machine

/-! ### Frames and suffixes -/

/-- A request frame that fits its length field is a whole frame (41_frame_encoder.md R123, R129). -/
theorem validFrame_encodeReq (c : Half) {d : List Byte} (h : d.length ≤ 65532) : ValidFrame (encodeReq c d) := by
  have hlen : (encodeReq c d).length = d.length + 7 := by simp [encodeReq_eq]
  have hbe : be16 (byteAt (encodeReq c d) 2) (byteAt (encodeReq c d) 3) = 3 + d.length := by
    rw [encodeReq_eq]
    exact be16_ofNat (by omega)
  have hxor : xorAll ((encodeReq c d).drop 4) = 0x00 := by
    have hdrop : (encodeReq c d).drop 4 = ([hi c, lo c] ++ d) ++ [xorAll ([hi c, lo c] ++ d)] := by
      rw [encodeReq_eq]
      rfl
    rw [hdrop, xorAll_append]
    simp
  exact ⟨by omega, by omega, by rw [encodeReq_eq]; rfl, by rw [encodeReq_eq]; rfl, by omega, hxor⟩

/-- Sending the byte at an index extends what has been sent of a sequence by that byte (20_memory.md R64). -/
theorem take_succ_suffix_of_sent {f sent : List Byte} {i : Nat} {b : Byte} (hb : f[i]? = some b)
    (h : f.take i <:+ sent) : f.take (i + 1) <:+ sent ++ [b] := by
  obtain ⟨before, rfl⟩ := h
  exact ⟨before, by simp [List.take_add_one, hb]⟩

/-! ### One lemma for each way the state can change -/

/-- An idle block need only keep its widths and its flags. -/
theorem inv_of_idle {s : State} (hp : s.phase = .idle) (hw : s.WidthsHold) (hf : s.FlagsHold) : s.Inv := by
  refine ⟨hw, ?_, ?_, ?_, hf⟩
  · simp [State.SequencerHolds, hp]
  · simp [State.BodyHolds, hp]
  · simp [State.OrderHolds, hp]

/-- The invariant does not speak of the host's next line. -/
theorem inv_nextLine {s : State} (h : s.Inv) : s.nextLine.Inv := h

theorem inv_resetBlock (s : State) : s.resetBlock.Inv :=
  inv_of_idle rfl (by simp [State.WidthsHold]) (by simp [State.FlagsHold])

/-- A fault with a cause changes nothing else that the invariant speaks of (60_exceptions.md R238). -/
theorem inv_setFault {s : State} {c : FaultCode} (h : s.Inv) (hc : c ≠ .none) :
    State.Inv { s with fault := true, faultCode := c } := by
  obtain ⟨hw, hs, hb, ho, -, hk⟩ := h
  exact ⟨hw, hs, hb, ho, by simpa using hc, hk⟩

theorem inv_raise {s : State} {c : FaultCode} (h : s.Inv) (hc : c ≠ .none) : (s.raise c).Inv := by
  cases hf : s.fault
  case true => rwa [State.raise_of_fault hf]
  case false =>
    rw [State.raise_of_not_fault hf]
    exact inv_setFault h hc

/-- Completion leaves an idle block with a result of a stored kind (10_state.md R31). -/
theorem inv_finish {s : State} {r : Result} (hw : s.WidthsHold) (hf : s.fault = true ↔ s.faultCode ≠ .none)
    (hr : kindOf r ≠ .empty) : (s.finish r).Inv :=
  inv_of_idle rfl hw ⟨hf, fun _ => hr⟩

/-- Starting an exchange puts a whole frame at its first byte (43_command_status.md R181). -/
theorem inv_startExchange {s : State} {code : BitVec 4} {c : Half} {d : List Byte} {a : Byte} (h : s.Inv)
    (hd : d.length ≤ 65532) (hx : exchangeCode code = true) :
    (State.startExchange { s.accepted code with arg := a } c d).Inv := by
  obtain ⟨⟨-, -, hh, hl, hr, hb⟩, -, -, -, hf, -⟩ := h
  have hv := validFrame_encodeReq c hd
  have ⟨hmin, hmax, _⟩ := hv
  refine ⟨⟨hmax, Nat.zero_le _, hh, hl, hr, hb⟩, ?_, ?_, ?_, hf, ?_⟩
  · exact ⟨fun _ => Nat.lt_of_lt_of_le (Nat.succ_pos 4) hmin, nofun, nofun, fun _ => ⟨hx, rfl⟩⟩
  · exact nofun
  · exact ⟨fun _ => hv, fun _ => List.nil_suffix, by simp⟩
  · simp

/-- A byte before the last is taken, in order (43_command_status.md R183). -/
theorem inv_sendByte {s : State} {b : Byte} {ans : List TxAnswer} (h : s.Inv) (hp : s.phase = .tx)
    (hb : s.txbuf[s.txidx]? = some b) (hidx : s.txidx + 1 < s.txbuf.length) :
    State.Inv { s with txAns := ans, sent := s.sent ++ [b], txidx := s.txidx + 1 } := by
  obtain ⟨⟨ht, -, hw⟩, ⟨-, -, -, hbusy⟩, -, ⟨hv, hsent, -⟩, hf⟩ := h
  refine ⟨⟨ht, by simp only; omega, hw⟩, ?_, ?_, ?_, hf⟩
  · exact ⟨fun _ => hidx, by simp [hp], by simp [hp], hbusy⟩
  · simp [hp]
  · exact ⟨hv, fun _ => take_succ_suffix_of_sent hb (hsent hp), by simp [hp]⟩

/-- The last byte is taken: the whole frame has been sent before any item is read (43_command_status.md R183; 20_memory.md
R64). -/
theorem inv_sendLastByte {s : State} {b : Byte} {ans : List TxAnswer} (h : s.Inv) (hp : s.phase = .tx)
    (hb : s.txbuf[s.txidx]? = some b) (hidx : s.txidx + 1 = s.txbuf.length) :
    State.Inv { s with txAns := ans, sent := s.sent ++ [b], txidx := s.txidx + 1, phase := .rxHdr, hcnt := 0 } := by
  obtain ⟨⟨ht, -, -, hw⟩, ⟨-, -, -, hbusy⟩, -, ⟨hv, hsent, -⟩, hf⟩ := h
  have hne : s.phase ≠ .idle := by simp [hp]
  have hall : s.txbuf <:+ s.sent ++ [b] := by
    have hstep := take_succ_suffix_of_sent hb (hsent hp)
    rwa [hidx, List.take_length] at hstep
  refine ⟨⟨ht, by simp only; omega, Nat.zero_le _, hw⟩, ?_, ?_, ?_, hf⟩
  · exact ⟨nofun, fun _ => Nat.zero_lt_succ _, nofun, fun _ => hbusy hne⟩
  · exact nofun
  · exact ⟨fun _ => hv hne, nofun, fun _ => hall⟩

/-- A header byte before the fourth (42_frame_parser.md R150). -/
theorem inv_headerByte {s : State} {k : Header} {items : List RxItem} (h : s.Inv) (hp : s.phase = .rxHdr)
    (hc : s.hcnt < 3) : State.Inv { s with rx := items, hbuf := k, hcnt := s.hcnt + 1 } := by
  obtain ⟨⟨ht, hidx, -, hw⟩, ⟨-, -, -, hbusy⟩, -, ho, hf⟩ := h
  refine ⟨⟨ht, hidx, by simp only; omega, hw⟩, ?_, ?_, ho, hf⟩
  · exact ⟨by simp [hp], fun _ => by simp only; omega, by simp [hp], hbusy⟩
  · simp [hp]

/-- The header has passed its checks: the body begins with nothing accumulated (42_frame_parser.md R151). -/
theorem inv_bodyBegins {s : State} {b : Byte} {items : List RxItem} (h : s.Inv) (hp : s.phase = .rxHdr)
    (h0 : s.hbuf.b0 = hi Config.framePrefix) (h1 : s.hbuf.b1 = lo Config.framePrefix) (hl : 4 ≤ be16 s.hbuf.b2 b) :
    State.Inv { s with
      rx := items, hbuf := { s.hbuf with b3 := b }, hcnt := 4
      rlen := be16 s.hbuf.b2 b, bcnt := 0, xacc := 0x00, rbuf := [], phase := .rxBody } := by
  obtain ⟨⟨ht, hidx, -⟩, ⟨-, -, -, hbusy⟩, -, ⟨hv, -, hsent⟩, hf⟩ := h
  have hne : s.phase ≠ .idle := by simp [hp]
  refine ⟨⟨ht, hidx, Nat.le_refl _, be16_le _ _, Nat.zero_le _, Nat.zero_le _⟩, ?_, ?_, ?_, hf⟩
  · exact ⟨nofun, nofun, fun _ => ⟨rfl, hl, by simp only; omega⟩, fun _ => hbusy hne⟩
  · exact fun _ => ⟨h0, h1, rfl, rfl, rfl⟩
  · exact ⟨fun _ => hv hne, nofun, fun _ => hsent (.inl hp)⟩

/-- A body byte before the last is stored and accumulated (42_frame_parser.md R152; 40_checksum.md R105). -/
theorem inv_bodyByte {s : State} {b : Byte} {items : List RxItem} (h : s.Inv) (hp : s.phase = .rxBody)
    (hc : s.bcnt + 1 < s.rlen) :
    State.Inv { s with rx := items, rbuf := s.rbuf ++ [b], bcnt := s.bcnt + 1, xacc := s.xacc ^^^ b } := by
  obtain ⟨⟨ht, hidx, hh, hl, -, -⟩, ⟨-, -, hbody, hbusy⟩, hb, ho, hf⟩ := h
  obtain ⟨hh4, hl4, -⟩ := hbody hp
  obtain ⟨h0, h1, hlen, hcnt, hx⟩ := hb hp
  have hcnt' : (s.rbuf ++ [b]).length = s.bcnt + 1 := by simp [hcnt]
  refine ⟨⟨ht, hidx, hh, hl, by simp only [hcnt']; omega, by simp only; omega⟩, ?_, ?_, ho, hf⟩
  · exact ⟨by simp [hp], by simp [hp], fun _ => ⟨hh4, hl4, hc⟩, hbusy⟩
  · exact fun _ => ⟨h0, h1, hlen, hcnt', by simp [xorAll_append, hx]⟩

/-! ### The steps -/

/-- A step of the block keeps the invariant. -/
theorem blockStep_keeps_inv {s t : State} (h : s.Inv) (e : blockStep s = .next t) : t.Inv := by
  have ⟨hw, _, hbody, _, hfc, _⟩ := h
  obtain rfl | ⟨-, htx | hhdr | hbdy⟩ := blockStep_next e
  · exact h
  · obtain ⟨hp, b, ans, hb, -, ⟨-, hidx, rfl⟩ | ⟨-, hidx, rfl⟩ | ⟨-, r, hr, rfl⟩⟩ := htx
    · exact inv_sendLastByte h hp hb hidx
    · exact inv_sendByte h hp hb hidx
    · exact inv_finish hw hfc hr
  · obtain ⟨hp, -, x, items, -, ⟨k, n, r, hn, hr, rfl⟩ | ⟨b, hc, rfl⟩ | ⟨b, -, h0, h1, hl, rfl⟩⟩ := hhdr
    · obtain ⟨ht, hidx, -, hw'⟩ := hw
      exact inv_finish ⟨ht, hidx, hn, hw'⟩ hfc hr
    · exact inv_headerByte h hp hc
    · exact inv_bodyBegins h hp h0 h1 hl
  · obtain ⟨hp, -, x, items, -, ⟨r, hr, rfl⟩ | ⟨b, hc, rfl⟩ | ⟨b, r, hr, hc, rfl⟩⟩ := hbdy
    · exact inv_finish hw hfc hr
    · exact inv_bodyByte h hp hc
    · obtain ⟨ht, hidx, hh, hl, -⟩ := hw
      obtain ⟨-, -, -, hcnt, -⟩ := hbody hp
      have hcnt' : (s.rbuf ++ [b]).length = s.bcnt + 1 := by simp [hcnt]
      exact inv_finish ⟨ht, hidx, hh, hl, by simp only [hcnt']; omega, by simp only; omega⟩ hfc hr

/-- An instruction keeps the invariant, whether it is accepted or faults (60_exceptions.md R236). -/
theorem exec_keeps_inv {i : Instr} {s t : State} (h : s.Inv) (e : exec i s = .next t) : t.Inv := by
  have ⟨hw, _, _, _, hfc, _⟩ := h
  obtain rfl | ⟨-, c, hc, rfl⟩ | ⟨-, -, code, r, hr, rfl⟩ | ⟨-, -, code, c, d, a, hd, hx, rfl⟩ := exec_next e
  · exact inv_nextLine h
  · exact inv_setFault (inv_nextLine h) hc
  · exact inv_finish hw hfc hr
  · exact inv_startExchange h hd hx

/-- Settles O58, by what a step can do: a step of the block, an instruction, reset, the NO_RESULT fault, or a change of the
host's own state alone. -/
theorem stepKeepsInvariant : Obligations.StepKeepsInvariant := by
  intro s t h e
  obtain hs | ⟨-, hs⟩ | ⟨r, -, hs⟩ | ⟨-, hs⟩ | ⟨-, -, hs⟩ | ⟨lines, reads, hs⟩ | hs := step_cases s
  all_goals rw [hs] at e
  · exact blockStep_keeps_inv h e
  · exact blockStep_keeps_inv (inv_nextLine h) e
  · exact exec_keeps_inv h e
  · cases e
    exact inv_resetBlock s.nextLine
  · cases e
    exact inv_raise (inv_nextLine h) (by decide)
  · cases e
    exact h
  · cases e

end Sys2Proof.Machine
end

section
/-! PROOF. States that agree on every register with a value step alike (10_state.md R23): each update of the state keeps
agreement, and each function of the machine, up to the whole step, has agreeing outcomes on agreeing states. -/

namespace Sys2Proof.Machine

/-! ### What agreeing states share -/

theorem State.Agree.phase {s t : State} : s.Agree t → s.phase = t.phase
  | ⟨hp, _⟩ => hp

theorem State.Agree.fault {s t : State} : s.Agree t → s.fault = t.fault
  | ⟨_, hf, _⟩ => hf

theorem State.Agree.resValid {s t : State} : s.Agree t → s.resValid = t.resValid
  | ⟨_, _, _, hv, _⟩ => hv

theorem State.Agree.res {s t : State} : s.Agree t → s.resValid = true → s.res = t.res
  | ⟨_, _, _, _, hr, _⟩ => hr

theorem State.Agree.rx {s t : State} : s.Agree t → s.rx = t.rx
  | ⟨_, _, _, _, _, hrx, _⟩ => hrx

theorem State.Agree.txAns {s t : State} : s.Agree t → s.txAns = t.txAns
  | ⟨_, _, _, _, _, _, ha, _⟩ => ha

/-- The host's side is the same. -/
theorem State.Agree.host {s t : State} : s.Agree t → s.todo = t.todo ∧ s.script = t.script ∧ s.reads = t.reads
  | ⟨_, _, _, _, _, _, _, _, ht, hsc, hrd, _⟩ => ⟨ht, hsc, hrd⟩

theorem State.Agree.op {s t : State} : s.Agree t → s.phase ≠ .idle → s.op = t.op
  | ⟨_, _, _, _, _, _, _, _, _, _, _, ho, _⟩ => ho

theorem State.Agree.tx {s t : State} : s.Agree t → s.phase = .tx → s.txbuf = t.txbuf ∧ s.txidx = t.txidx
  | ⟨_, _, _, _, _, _, _, _, _, _, _, _, ht, _⟩ => ht

theorem State.Agree.rxHdr {s t : State} :
    s.Agree t → s.phase = .rxHdr → s.hcnt = t.hcnt ∧ headersAgree s.hcnt s.hbuf t.hbuf
  | ⟨_, _, _, _, _, _, _, _, _, _, _, _, _, hh, _⟩ => hh

theorem State.Agree.rxBody {s t : State} :
    s.Agree t → s.phase = .rxBody → s.rlen = t.rlen ∧ s.rbuf = t.rbuf ∧ s.bcnt = t.bcnt ∧ s.xacc = t.xacc
  | ⟨_, _, _, _, _, _, _, _, _, _, _, _, _, _, hb⟩ => hb

/-- STATUS shows registers with a value only (10_state.md R33). -/
theorem statusWord_eq_of_agree {s t : State} (h : s.Agree t) : statusWord s = statusWord t := by
  have hk : shownKind s = shownKind t := by
    unfold shownKind
    rw [← h.resValid]
    split
    case isTrue hv => rw [h.res hv]
    case isFalse => rfl
  obtain ⟨hp, hf, hc, hv, -⟩ := h
  simp only [statusWord, busy, hk, hp, hf, hc, hv]

/-! ### The updates of the state keep agreement -/

theorem agree_host {s t : State} (h : s.Agree t) {lines lines' : List HostLine} {reads reads' : List HostRead}
    (hl : lines = lines') (hr : reads = reads') :
    State.Agree { s with todo := lines, reads := reads } { t with todo := lines', reads := reads' } := by
  obtain ⟨hp, hf, hc, hv, hres, hrx, ha, hs, -, hsc, -, hreg⟩ := h
  exact ⟨hp, hf, hc, hv, hres, hrx, ha, hs, hl, hsc, hr, hreg⟩

theorem agree_nextLine {s t : State} (h : s.Agree t) : s.nextLine.Agree t.nextLine := by
  obtain ⟨ht, -, hrd⟩ := h.host
  exact agree_host h (congrArg List.tail ht) hrd

theorem agree_setFault {s t : State} (h : s.Agree t) (c : FaultCode) :
    State.Agree { s with fault := true, faultCode := c } { t with fault := true, faultCode := c } := by
  obtain ⟨hp, -, -, hreg⟩ := h
  exact ⟨hp, rfl, rfl, hreg⟩

theorem agree_raise {s t : State} (h : s.Agree t) (c : FaultCode) : (s.raise c).Agree (t.raise c) := by
  unfold State.raise
  rw [← h.fault]
  split
  · exact h
  · exact agree_setFault h c

theorem agree_resetBlock {s t : State} (h : s.Agree t) : s.resetBlock.Agree t.resetBlock := by
  obtain ⟨-, -, -, -, -, hrx, ha, hs, ht, hsc, hrd, -⟩ := h
  exact ⟨rfl, rfl, rfl, rfl, nofun, hrx, ha, hs, ht, hsc, hrd, fun _ => rfl, nofun, nofun, nofun⟩

theorem agree_rx {s t : State} (h : s.Agree t) (items : List RxItem) :
    State.Agree { s with rx := items } { t with rx := items } := by
  obtain ⟨hp, hf, hc, hv, hr, -, hreg⟩ := h
  exact ⟨hp, hf, hc, hv, hr, rfl, hreg⟩

theorem agree_txAns {s t : State} (h : s.Agree t) (ans : List TxAnswer) :
    State.Agree { s with txAns := ans } { t with txAns := ans } := by
  obtain ⟨hp, hf, hc, hv, hr, hrx, -, hreg⟩ := h
  exact ⟨hp, hf, hc, hv, hr, hrx, rfl, hreg⟩

/-- A completion writes the result and leaves a block whose working registers hold no value (10_state.md R31). -/
theorem agree_finish {s t : State} (h : s.Agree t) (r : Result) : (s.finish r).Agree (t.finish r) := by
  obtain ⟨-, hf, hc, -, -, hrx, ha, hs, ht, hsc, hrd, -⟩ := h
  exact ⟨rfl, hf, hc, rfl, fun _ => rfl, hrx, ha, hs, ht, hsc, hrd, nofun, nofun, nofun, nofun⟩

/-- An accepted request writes `op` and takes the result's validity away (60_exceptions.md R236). -/
theorem agree_accepted {s t : State} (h : s.Agree t) (hp : s.phase = .idle) (code : BitVec 4) :
    (s.accepted code).Agree (t.accepted code) := by
  obtain ⟨hph, hf, hc, -, -, hrx, ha, hs, ht, hsc, hrd, -⟩ := h
  refine ⟨hph, hf, hc, rfl, nofun, hrx, ha, hs, congrArg List.tail ht, hsc, hrd, fun _ => rfl, ?_⟩
  simp [hp]

/-- Starting an exchange writes every register that TX reads, whatever `arg` holds (43_command_status.md R181). -/
theorem agree_startExchange {s t : State} (h : s.Agree t) (hop : s.op = t.op) (a b : Byte) (c : Half)
    (d : List Byte) :
    (State.startExchange { s with arg := a } c d).Agree (State.startExchange { t with arg := b } c d) := by
  obtain ⟨-, hf, hc, hv, hr, hrx, ha, hs, ht, hsc, hrd, -⟩ := h
  exact ⟨rfl, hf, hc, hv, hr, hrx, ha, hs, ht, hsc, hrd, fun _ => hop, fun _ => ⟨rfl, rfl⟩, nofun, nofun⟩

theorem agree_txAck {s t : State} (h : s.Agree t) (hp : s.phase = .tx) (b : Byte) :
    (txAck b s).Agree (txAck b t) := by
  obtain ⟨hbuf, hidx⟩ := h.tx hp
  have hop := h.op (by simp [hp])
  obtain ⟨hph, hf, hc, hv, hr, hrx, ha, hs, ht, hsc, hrd, -⟩ := h
  have hsent : s.sent ++ [b] = t.sent ++ [b] := by rw [hs]
  simp only [txAck, hbuf, hidx]
  split
  · refine ⟨rfl, hf, hc, hv, hr, hrx, ha, hsent, ht, hsc, hrd, fun _ => hop, nofun, fun _ => ⟨rfl, ?_⟩, nofun⟩
    simp [headersAgree]
  · refine ⟨hph, hf, hc, hv, hr, hrx, ha, hsent, ht, hsc, hrd, fun _ => hop, fun _ => ⟨rfl, rfl⟩, ?_⟩
    simp [hp]

/-- Storing the next header byte makes one more of them agree (42_frame_parser.md R150). -/
theorem headersAgree_setHeaderByte {n : Nat} {h k : Header} (hn : n < 4) (hh : headersAgree n h k) (b : Byte) :
    headersAgree (n + 1) (setHeaderByte h n b) (setHeaderByte k n b) := by
  obtain rfl | rfl | rfl | rfl : n = 0 ∨ n = 1 ∨ n = 2 ∨ n = 3 := by omega
  all_goals simp_all [setHeaderByte, headersAgree]

theorem agree_setHeaderByte {s t : State} (h : s.Agree t) (hp : s.phase = .rxHdr) (hn : s.hcnt < 4) (b : Byte) :
    State.Agree { s with hbuf := setHeaderByte s.hbuf s.hcnt b, hcnt := s.hcnt + 1 }
      { t with hbuf := setHeaderByte t.hbuf t.hcnt b, hcnt := t.hcnt + 1 } := by
  obtain ⟨hcnt, hh⟩ := h.rxHdr hp
  have hop := h.op
  obtain ⟨hph, hf, hc, hv, hr, hrx, ha, hs, ht, hsc, hrd, -⟩ := h
  refine ⟨hph, hf, hc, hv, hr, hrx, ha, hs, ht, hsc, hrd, hop, by simp [hp], fun _ => ?_, by simp [hp]⟩
  rw [← hcnt]
  exact ⟨rfl, headersAgree_setHeaderByte hn hh b⟩

theorem agree_bodyBegins {s t : State} (h : s.Agree t) (hp : s.phase = .rxHdr) (n : Nat) :
    State.Agree { s with rlen := n, bcnt := 0, xacc := 0x00, rbuf := [], phase := .rxBody }
      { t with rlen := n, bcnt := 0, xacc := 0x00, rbuf := [], phase := .rxBody } := by
  have hop := h.op (by simp [hp])
  obtain ⟨-, hf, hc, hv, hr, hrx, ha, hs, ht, hsc, hrd, -⟩ := h
  exact ⟨rfl, hf, hc, hv, hr, hrx, ha, hs, ht, hsc, hrd, fun _ => hop, nofun, nofun, fun _ => ⟨rfl, rfl, rfl, rfl⟩⟩

theorem agree_storeBodyByte {s t : State} (h : s.Agree t) (hp : s.phase = .rxBody) (b : Byte) :
    State.Agree
      { s with
        rbuf := s.rbuf ++ [b], xacc := if s.bcnt < s.rlen - 1 then s.xacc ^^^ b else s.xacc, bcnt := s.bcnt + 1 }
      { t with
        rbuf := t.rbuf ++ [b], xacc := if t.bcnt < t.rlen - 1 then t.xacc ^^^ b else t.xacc, bcnt := t.bcnt + 1 } := by
  obtain ⟨hlen, hbuf, hcnt, hx⟩ := h.rxBody hp
  have hop := h.op
  obtain ⟨hph, hf, hc, hv, hr, hrx, ha, hs, ht, hsc, hrd, -⟩ := h
  refine ⟨hph, hf, hc, hv, hr, hrx, ha, hs, ht, hsc, hrd, hop, by simp [hp], by simp [hp], fun _ => ?_⟩
  simp [hlen, hbuf, hcnt, hx]

/-! ### The block's step -/

/-- A completion reads nothing but `op`, which has a value in every busy phase (43_command_status.md R186, R187). -/
theorem complete_agree {s t : State} (h : s.Agree t) (hp : s.phase ≠ .idle) {o o' : ParseOut} {k k' : Nat}
    (ho : o = o') (hk : k = k') : outcomesAgree (complete o k s) (complete o' k' t) := by
  subst ho hk
  cases o with
  | error e => exact agree_finish h _
  | ok c st a =>
    simp only [complete, ← h.op hp]
    split
    · exact agree_finish h _
    · exact rfl

theorem txStep_agree {s t : State} (h : s.Agree t) (hp : s.phase = .tx) : outcomesAgree (txStep s) (txStep t) := by
  obtain ⟨hbuf, hidx⟩ := h.tx hp
  have hne : s.phase ≠ .idle := by simp [hp]
  have hbyte : t.txbuf[t.txidx]? = s.txbuf[s.txidx]? := by rw [hbuf, hidx]
  simp only [txStep, hbyte, ← h.txAns]
  split
  · exact rfl
  · split
    next => exact h
    next ans _ => exact agree_txAck (agree_txAns h ans) hp _
    next ans _ => exact complete_agree (agree_txAns h ans) hne (by simp only [hidx]) rfl

/-- The header check reads the four header bytes, all of which have a value by then (42_frame_parser.md R151). -/
theorem headerCheck_agree {s t : State} (h : s.Agree t) (hp : s.phase = .rxHdr) (hn : s.hcnt = 4) :
    outcomesAgree (headerCheck s) (headerCheck t) := by
  have hne : s.phase ≠ .idle := by simp [hp]
  obtain ⟨-, h0, h1, h2, h3⟩ := h.rxHdr hp
  simp only [headerCheck, ← h0 (by omega), ← h1 (by omega), ← h2 (by omega), ← h3 (by omega)]
  split
  · exact complete_agree h hne rfl rfl
  · split
    · exact complete_agree h hne rfl rfl
    · exact agree_bodyBegins h hp _

theorem headerByte_agree {s t : State} (h : s.Agree t) (hp : s.phase = .rxHdr) (hn : s.hcnt < 4) (b : Byte) :
    outcomesAgree (headerByte b s) (headerByte b t) := by
  obtain ⟨hcnt, -⟩ := h.rxHdr hp
  have h' := agree_setHeaderByte h hp hn b
  have hlast : (t.hcnt + 1 = 4) = (s.hcnt + 1 = 4) := by rw [hcnt]
  simp only [headerByte, hlast]
  split
  case isTrue h4 => exact headerCheck_agree h' hp h4
  case isFalse => exact h'

theorem rxHdrStep_agree {s t : State} (h : s.Agree t) (hp : s.phase = .rxHdr) :
    outcomesAgree (rxHdrStep s) (rxHdrStep t) := by
  obtain ⟨hcnt, -⟩ := h.rxHdr hp
  have hne : s.phase ≠ .idle := by simp [hp]
  have hlt : (t.hcnt < 4) = (s.hcnt < 4) := by rw [hcnt]
  simp only [rxHdrStep, hlt, ← h.rx]
  split
  case isFalse => exact rfl
  case isTrue hn =>
    split
    next => exact h
    next b items _ => exact headerByte_agree (agree_rx h items) hp hn b
    next items _ => exact complete_agree (agree_rx h items) hne (by simp only [hcnt]) hcnt
    next items _ => exact complete_agree (agree_rx h items) hne (by simp only [hcnt]) hcnt

theorem bodyCheck_agree {s t : State} (h : s.Agree t) (hp : s.phase = .rxBody) (b : Byte) :
    outcomesAgree (bodyCheck b s) (bodyCheck b t) := by
  have hne : s.phase ≠ .idle := by simp [hp]
  obtain ⟨hlen, hbuf, -, hx⟩ := h.rxBody hp
  simp only [bodyCheck, ← hlen, ← hbuf, ← hx]
  split
  · exact complete_agree h hne rfl rfl
  · exact complete_agree h hne rfl rfl

theorem bodyByte_agree {s t : State} (h : s.Agree t) (hp : s.phase = .rxBody) (b : Byte) :
    outcomesAgree (bodyByte b s) (bodyByte b t) := by
  obtain ⟨hlen, -, hcnt, -⟩ := h.rxBody hp
  have h' := agree_storeBodyByte h hp b
  have hlast : (t.bcnt + 1 = t.rlen) = (s.bcnt + 1 = s.rlen) := by rw [hcnt, hlen]
  simp only [bodyByte, hlast]
  split
  · exact bodyCheck_agree h' hp b
  · exact h'

theorem rxBodyStep_agree {s t : State} (h : s.Agree t) (hp : s.phase = .rxBody) :
    outcomesAgree (rxBodyStep s) (rxBodyStep t) := by
  obtain ⟨hlen, -, hcnt, -⟩ := h.rxBody hp
  have hne : s.phase ≠ .idle := by simp [hp]
  have hlt : (t.bcnt < t.rlen) = (s.bcnt < s.rlen) := by rw [hcnt, hlen]
  simp only [rxBodyStep, hlt, ← h.rx]
  split
  · split
    next => exact h
    next b items _ => exact bodyByte_agree (agree_rx h items) hp b
    next items _ => exact complete_agree (agree_rx h items) hne (by simp only [hcnt]) (by simp only [hcnt])
    next items _ => exact complete_agree (agree_rx h items) hne (by simp only [hcnt]) (by simp only [hcnt])
  · exact rfl

theorem blockStep_agree {s t : State} (h : s.Agree t) : outcomesAgree (blockStep s) (blockStep t) := by
  unfold blockStep
  rw [← h.fault, ← h.phase]
  split
  · exact h
  · split
    next => exact h
    next hp => exact txStep_agree h hp
    next hp => exact rxHdrStep_agree h hp
    next hp => exact rxBodyStep_agree h hp

/-! ### Acceptance -/

/-- Acceptance reads the fault and the phase; what it does to an idle block is the operation's own action. -/
theorem accept_agree {s t : State} (h : s.Agree t) (code : BitVec 4) (bad : Option FaultCode) {act : State → State}
    (hact : s.phase = .idle → (act (s.accepted code)).Agree (act (t.accepted code))) :
    outcomesAgree (accept code bad act s) (accept code bad act t) := by
  have hfault := h.fault
  have hphase := h.phase
  obtain ⟨hf, e⟩ | ⟨hf, hp, e⟩ | ⟨hf, hp, c, rfl, e⟩ | ⟨hf, hp, rfl, e⟩ := accept_cases code bad act s
  all_goals rw [e]; rw [hfault] at hf
  · rw [accept_faulted hf]
    exact agree_nextLine h
  · rw [accept_busy hf (hphase ▸ hp)]
    exact agree_setFault (agree_nextLine h) _
  · rw [accept_bad hf (hphase ▸ hp)]
    exact agree_setFault (agree_nextLine h) c
  · rw [accept_good hf (hphase ▸ hp)]
    exact hact hp

theorem exec_agree (i : Instr) {s t : State} (h : s.Agree t) : outcomesAgree (exec i s) (exec i t) := by
  obtain ⟨code, r, -, -, e⟩ | ⟨code, c, d, -, f, e⟩ | ⟨-, -, code, e⟩ := exec_eq_accept i
  all_goals rw [e, e]; refine accept_agree h code _ fun hp => ?_
  · exact agree_finish (agree_accepted h hp code) r
  · exact agree_startExchange (agree_accepted h hp code) rfl _ _ c d
  · exact agree_accepted h hp code

/-! ### The host's lines -/

/-- Reading the same value from a port keeps agreement. -/
theorem agree_read {s t : State} (h : s.Agree t) {v w : HostRead} (hv : v = w) :
    State.Agree { s.nextLine with reads := v :: s.reads } { t.nextLine with reads := w :: t.reads } := by
  obtain ⟨ht, -, hrd⟩ := h.host
  exact agree_host h (congrArg List.tail ht) (by rw [hv, hrd])

theorem hostReadStatus_agree {s t : State} (h : s.Agree t) : outcomesAgree (hostReadStatus s) (hostReadStatus t) :=
  agree_read h (by rw [statusWord_eq_of_agree h])

theorem hostReadResult_agree {s t : State} (h : s.Agree t) : outcomesAgree (hostReadResult s) (hostReadResult t) := by
  unfold hostReadResult
  rw [← h.resValid]
  split
  case isTrue hv => exact agree_read h (by rw [h.res hv])
  case isFalse => exact agree_raise (agree_nextLine h) _

theorem hostAwait_agree {s t : State} (h : s.Agree t) : outcomesAgree (hostAwait s) (hostAwait t) := by
  unfold hostAwait
  rw [← h.fault, ← h.resValid]
  split
  · exact h
  · split
    case isTrue hv => exact agree_read h (by rw [h.res hv])
    case isFalse => exact blockStep_agree h

theorem hostGoto_agree (name : Nat) {s t : State} (h : s.Agree t) :
    outcomesAgree (hostGoto name s) (hostGoto name t) := by
  obtain ⟨-, hsc, hrd⟩ := h.host
  have hjump : linesAfter name t.script = linesAfter name s.script := by rw [hsc]
  simp only [hostGoto, hjump]
  split
  · exact agree_host h rfl hrd
  · exact rfl

theorem hostIfKind_agree (kind : Kind) (name : Nat) {s t : State} (h : s.Agree t) :
    outcomesAgree (hostIfKind kind name s) (hostIfKind kind name t) := by
  obtain ⟨-, -, hrd⟩ := h.host
  unfold hostIfKind
  rw [← hrd]
  split
  · exact hostGoto_agree name h
  · exact agree_nextLine h

/-- Settles O60, line by line of the host: what a line does reads nothing but registers with a value. -/
theorem registersWithoutValueAreNeverRead : Obligations.RegistersWithoutValueAreNeverRead := by
  intro s t h
  obtain ⟨ht, -⟩ := h.host
  unfold step
  rw [← ht]
  split
  · exact blockStep_agree h
  · exact exec_agree _ h
  · exact hostReadStatus_agree h
  · exact hostReadResult_agree h
  · exact agree_resetBlock (agree_nextLine h)
  · exact blockStep_agree (agree_nextLine h)
  · exact hostAwait_agree h
  · exact agree_nextLine h
  · exact hostGoto_agree _ h
  · exact hostIfKind_agree _ _ h
  · exact blockStep_agree h

end Sys2Proof.Machine
end

section
/-! PROOF. The host's reads of STATUS and of the result port (10_state.md R33, R34). -/

namespace Sys2Proof.Machine

theorem step_of_readStatus {s : State} {rest : List HostLine} (h : s.todo = .readStatus :: rest) :
    step s = .next { s with todo := rest, reads := .status (statusWord s) :: s.reads } := by
  simp [step, h, hostReadStatus, State.nextLine]

theorem step_of_readResult {s : State} {rest : List HostLine} (h : s.todo = .readResult :: rest) :
    step s = hostReadResult s := by
  simp [step, h]

/-- The fields of a word put together as STATUS is, from bit 15 down to bit 0 (10_state.md R33). -/
theorem statusFields (kind code : BitVec 4) (r7 : BitVec 1) (phase : BitVec 3) (r3 fault valid busy : BitVec 1) :
    let w := kind ++ code ++ r7 ++ phase ++ r3 ++ fault ++ valid ++ busy
    w.extractLsb' 0 1 = busy ∧ w.extractLsb' 1 1 = valid ∧ w.extractLsb' 2 1 = fault ∧ w.extractLsb' 3 1 = r3
      ∧ w.extractLsb' 4 3 = phase ∧ w.extractLsb' 7 1 = r7 ∧ w.extractLsb' 8 4 = code ∧ w.extractLsb' 12 4 = kind := by
  intro w
  simp (disch := decide) only [w, BitVec.extractLsb'_append_eq_of_le, BitVec.extractLsb'_append_eq_of_add_le]
  simp [BitVec.extractLsb'_eq_self]

/-- The busy bit is 1 exactly outside IDLE (10_state.md R26). -/
theorem ofBool_busy (s : State) : BitVec.ofBool (busy s) = 1 ↔ s.phase ≠ .idle := by
  unfold busy
  cases s.phase <;> decide

/-- Settles O50: STATUS is its fields put together, and each field has the number of its table. -/
theorem statusReadGivesEveryField : Obligations.StatusReadGivesEveryField := by
  intro s rest h
  obtain ⟨hbusy, hvalid, hfault, h3, hphase, h7, hcode, hkind⟩ := statusFields (shownKind s) (faultNumber s.faultCode) 0
    (phaseNumber s.phase) 0 (BitVec.ofBool s.fault) (BitVec.ofBool s.resValid) (BitVec.ofBool (busy s))
  refine ⟨statusWord s, step_of_readStatus h, ?_, hvalid, hfault, h3, hphase.trans ?_, h7, hcode.trans ?_,
    hkind.trans ?_⟩
  · exact hbusy ▸ ofBool_busy s
  · cases s.phase <;> rfl
  · cases s.faultCode <;> rfl
  · unfold shownKind
    cases s.resValid
    case false => rfl
    case true => cases s.res <;> rfl

/-- Settles O51, by the two branches of the read (10_state.md R34) and the two of the fault it raises. -/
theorem resultReadNeedsAResult : Obligations.ResultReadNeedsAResult := by
  intro s rest h
  have hnext : s.nextLine = { s with todo := rest } := by simp [State.nextLine, h]
  rw [step_of_readResult h, hostReadResult]
  refine ⟨fun hv => ?_, fun hv hf => ?_, fun hv hf => ?_⟩
  · rw [if_pos hv, hnext]
  · rw [if_neg (by simp [hv]), State.raise_of_not_fault (s := s.nextLine) hf, hnext]
  · rw [if_neg (by simp [hv]), State.raise_of_fault (s := s.nextLine) hf, hnext]

end Sys2Proof.Machine
end

section
/-! PROOF. What a step does to the phase and the flags, said once, and the rules that follow (10_state.md R26, R31, R32,
R41 to R43; 60_exceptions.md R236, R238). -/

namespace Sys2Proof.Machine

/-- Settles O13: without a fault, only an accepted one-step operation or an accepted exchange is left. -/
theorem acceptedOperationsCompleteOrStartTransmitting :
    Obligations.AcceptedOperationsCompleteOrStartTransmitting := by
  intro i s hf hp hb
  obtain ⟨hf', -⟩ | ⟨-, hp', -⟩ | ⟨-, -, c, hc, -⟩ | ⟨-, -, -, hx, code, r, -, e⟩
    | ⟨-, -, -, code, c, d, hx, a, e⟩ := exec_cases i s
  · simp [hf] at hf'
  · exact absurd hp hp'
  · simp [hb] at hc
  · exact ⟨_, e, hf, fun _ => ⟨rfl, rfl⟩, fun h => absurd hx h⟩
  · exact ⟨_, e, hf, fun h => by simp [hx] at h, fun _ => ⟨rfl, rfl⟩⟩

/-- Every next state of a step of the block, by its phase and flags: the fault and its code stay, and the phase and the
result's validity stay too, but for the last byte of the frame, the last byte of a good header, and a completion. -/
theorem blockStep_phase_and_flags {s t : State} (h : blockStep s = .next t) :
    t.fault = s.fault ∧ t.faultCode = s.faultCode ∧
      (t.phase = s.phase ∧ t.resValid = s.resValid
      ∨ t.resValid = s.resValid ∧ s.phase = .tx ∧ t.phase = .rxHdr
        ∧ t.sent = s.sent ++ [byteAt s.txbuf s.txidx] ∧ t.txidx = s.txbuf.length
      ∨ t.resValid = s.resValid ∧ s.phase = .rxHdr ∧ t.phase = .rxBody ∧ t.hcnt = 4
      ∨ s.fault = false ∧ s.phase ≠ .idle ∧ t.phase = .idle ∧ t.resValid = true) := by
  obtain rfl | ⟨hf, htx | hhdr | hbdy⟩ := blockStep_next h
  · exact ⟨rfl, rfl, .inl ⟨rfl, rfl⟩⟩
  · obtain ⟨hp, b, ans, hb, -, ⟨-, hidx, rfl⟩ | ⟨-, -, rfl⟩ | ⟨-, r, -, rfl⟩⟩ := htx
    · exact ⟨rfl, rfl, .inr (.inl ⟨rfl, hp, rfl, by simp only [byteAt_of_getElem? hb], hidx⟩)⟩
    · exact ⟨rfl, rfl, .inl ⟨rfl, rfl⟩⟩
    · exact ⟨rfl, rfl, .inr (.inr (.inr ⟨hf, by simp [hp], rfl, rfl⟩))⟩
  · obtain ⟨hp, -, x, items, -, ⟨k, n, r, -, -, rfl⟩ | ⟨b, -, rfl⟩ | ⟨b, -, -, -, -, rfl⟩⟩ := hhdr
    · exact ⟨rfl, rfl, .inr (.inr (.inr ⟨hf, by simp [hp], rfl, rfl⟩))⟩
    · exact ⟨rfl, rfl, .inl ⟨rfl, rfl⟩⟩
    · exact ⟨rfl, rfl, .inr (.inr (.inl ⟨rfl, hp, rfl, rfl⟩))⟩
  · obtain ⟨hp, -, x, items, -, ⟨r, -, rfl⟩ | ⟨b, -, rfl⟩ | ⟨b, r, -, -, rfl⟩⟩ := hbdy
    · exact ⟨rfl, rfl, .inr (.inr (.inr ⟨hf, by simp [hp], rfl, rfl⟩))⟩
    · exact ⟨rfl, rfl, .inl ⟨rfl, rfl⟩⟩
    · exact ⟨rfl, rfl, .inr (.inr (.inr ⟨hf, by simp [hp], rfl, rfl⟩))⟩

/-- A step of the block changes the phase only along 10_state.md R42 and R43. -/
theorem blockStep_phase_change {s t : State} (h : blockStep s = .next t) (hne : t.phase ≠ s.phase) :
    (s.phase = .tx ∧ t.phase = .rxHdr ∧ t.sent = s.sent ++ [byteAt s.txbuf s.txidx] ∧ t.txidx = s.txbuf.length)
    ∨ (s.phase = .rxHdr ∧ t.phase = .rxBody ∧ t.hcnt = 4)
    ∨ (s.phase ≠ .idle ∧ t.phase = .idle ∧ t.resValid = true) := by
  obtain ⟨-, -, ⟨hp, -⟩ | ⟨-, htx⟩ | ⟨-, hhdr⟩ | ⟨-, hdone⟩⟩ := blockStep_phase_and_flags h
  · exact absurd hp hne
  · exact .inl htx
  · exact .inr (.inl hhdr)
  · exact .inr (.inr hdone)

/-- A step of the block changes no flag but the result's, and that only by a completion (10_state.md R31). -/
theorem blockStep_flags {s t : State} (h : blockStep s = .next t) :
    t.fault = s.fault ∧ t.faultCode = s.faultCode ∧
      (t.resValid = s.resValid ∨ s.fault = false ∧ s.phase ≠ .idle ∧ t.phase = .idle ∧ t.resValid = true) := by
  obtain ⟨hf, hc, ⟨-, hv⟩ | ⟨hv, -⟩ | ⟨hv, -⟩ | hdone⟩ := blockStep_phase_and_flags h
  · exact ⟨hf, hc, .inl hv⟩
  · exact ⟨hf, hc, .inl hv⟩
  · exact ⟨hf, hc, .inl hv⟩
  · exact ⟨hf, hc, .inr hdone⟩

/-- An instruction changes the phase only by starting an exchange (10_state.md R41). -/
theorem exec_phase_change {i : Instr} {s t : State} (h : exec i s = .next t) (hne : t.phase ≠ s.phase) :
    s.phase = .idle ∧ t.phase = .tx := by
  obtain rfl | ⟨-, c, -, rfl⟩ | ⟨-, hp, code, r, -, rfl⟩ | ⟨-, hp, code, c, d, a, -, -, rfl⟩ := exec_next h
  · exact absurd rfl hne
  · exact absurd rfl hne
  · exact absurd hp.symm hne
  · exact ⟨hp, rfl⟩

/-- Settles O55: the phase changes in a step of the block, in an acceptance, and in reset alone. -/
theorem phasesChangeOnlyAsTheRulesSay : Obligations.PhasesChangeOnlyAsTheRulesSay := by
  intro s t _ hreset e hne
  obtain hs | ⟨-, hs⟩ | ⟨r, hr, hs⟩ | ⟨hr, -⟩ | ⟨-, -, hs⟩ | ⟨lines, reads, hs⟩ | hs := step_cases s
  case inr.inr.inr.inl => exact absurd hr hreset
  all_goals rw [hs] at e
  · exact .inr (blockStep_phase_change e hne)
  · exact .inr (blockStep_phase_change (s := s.nextLine) e hne)
  · obtain ⟨hp, hp'⟩ := exec_phase_change e hne
    exact .inl ⟨hp, hp', r, hr⟩
  · cases e
    simp at hne
  · cases e
    exact absurd rfl hne
  · cases e

/-- Everything a step can do to the flags: nothing, a first fault, a completion, the start of an exchange, reset. -/
theorem step_flags {s t : State} (e : step s = .next t) :
    (t.fault = s.fault ∧ t.faultCode = s.faultCode ∧ t.resValid = s.resValid)
    ∨ (s.fault = false ∧ t.fault = true ∧ t.resValid = s.resValid
      ∧ ((∃ r, s.todo.head? = some (.present r)) ∨ s.todo.head? = some .readResult))
    ∨ (t.fault = s.fault ∧ t.faultCode = s.faultCode ∧ s.fault = false ∧ t.resValid = true ∧ t.phase = .idle
      ∧ (s.phase ≠ .idle ∨ ∃ r, s.todo.head? = some (.present r)))
    ∨ (t.fault = s.fault ∧ t.faultCode = s.faultCode ∧ t.resValid = false ∧ t.phase = .tx
      ∧ ∃ r, s.todo.head? = some (.present r))
    ∨ (t.fault = false ∧ t.resValid = false ∧ s.todo.head? = some .reset) := by
  obtain hs | ⟨-, hs⟩ | ⟨r, hr, hs⟩ | ⟨hr, hs⟩ | ⟨hr, -, hs⟩ | ⟨lines, reads, hs⟩ | hs := step_cases s
  all_goals rw [hs] at e
  · obtain ⟨hf, hc, hv | ⟨hnf, hp, hp', hv⟩⟩ := blockStep_flags e
    · exact .inl ⟨hf, hc, hv⟩
    · exact .inr (.inr (.inl ⟨hf, hc, hnf, hv, hp', .inl hp⟩))
  · obtain ⟨hf, hc, hv | ⟨hnf, hp, hp', hv⟩⟩ := blockStep_flags e
    · exact .inl ⟨hf, hc, hv⟩
    · exact .inr (.inr (.inl ⟨hf, hc, hnf, hv, hp', .inl hp⟩))
  · obtain rfl | ⟨hnf, c, -, rfl⟩ | ⟨hnf, -, code, v, -, rfl⟩ | ⟨-, -, code, c, d, a, -, -, rfl⟩ := exec_next e
    · exact .inl ⟨rfl, rfl, rfl⟩
    · exact .inr (.inl ⟨hnf, rfl, rfl, .inl ⟨r, hr⟩⟩)
    · exact .inr (.inr (.inl ⟨rfl, rfl, hnf, rfl, rfl, .inr ⟨r, hr⟩⟩))
    · exact .inr (.inr (.inr (.inl ⟨rfl, rfl, rfl, rfl, r, hr⟩)))
  · cases e
    exact .inr (.inr (.inr (.inr ⟨rfl, rfl, hr⟩)))
  · cases e
    cases hf : s.fault
    case false => exact .inr (.inl ⟨rfl, by simp, by simp, .inr hr⟩)
    case true => exact .inl (by simp [hf])
  · cases e
    exact .inl ⟨rfl, rfl, rfl⟩
  · cases e

/-- Settles O56, by what a step can do to the flags. -/
theorem flagsChangeOnlyWhereTheRulesSay : Obligations.FlagsChangeOnlyWhereTheRulesSay := by
  intro s t e
  obtain ⟨hf, hc, hv⟩ | ⟨hf, hf', hv, hl⟩ | ⟨hf, hc, hnf, hv, hp, hl⟩ | ⟨hf, hc, hv, hp, hl⟩ | ⟨hf, hv, hl⟩ :=
    step_flags e
  all_goals simp_all

end Sys2Proof.Machine
end

section
/-! PROOF. From a state of the invariant the machine never stops but for a script that jumps nowhere (10_state.md R25). -/

namespace Sys2Proof.Machine

/-- Every instruction answers a next state (60_exceptions.md R236). -/
theorem exec_answers (i : Instr) (s : State) : ∃ t, exec i s = .next t := by
  obtain ⟨-, e⟩ | ⟨-, -, e⟩ | ⟨-, -, c, -, e⟩ | ⟨-, -, -, -, code, r, -, e⟩ | ⟨-, -, -, code, c, d, -, a, e⟩ :=
    exec_cases i s
  all_goals exact ⟨_, e⟩

/-- A response is interpreted whenever `op` is an exchange operation (43_command_status.md R187). -/
theorem complete_answers {s : State} (h : exchangeCode s.op = true) (o : ParseOut) (k : Nat) :
    ∃ t, complete o k s = .next t := by
  obtain ⟨r, e, -⟩ | ⟨-, hop⟩ := complete_cases o k s
  · exact ⟨_, e⟩
  · exact absurd (of_decide_eq_true h) hop

/-- Where the rules of each phase give a step, the block has one (10_state.md R25). -/
theorem blockStep_answers {s : State} (h : s.SequencerHolds) : ∃ t, blockStep s = .next t := by
  obtain ⟨htx, hhdr, hbody, hbusy⟩ := h
  cases hf : s.fault
  case true => exact ⟨s, blockStep_still (.inl hf)⟩
  case false =>
    cases hp : s.phase
    case idle => exact ⟨s, blockStep_still (.inr hp)⟩
    case tx =>
      rw [blockStep_tx hf hp]
      obtain ⟨hout, -⟩ | ⟨b, -, -, ⟨-, e⟩ | ⟨_, -, -, e⟩ | ⟨_, -, -, e⟩ | ⟨_, -, e⟩⟩ := txStep_cases s
      · exact absurd (htx hp) (Nat.not_lt_of_le hout)
      all_goals exact ⟨_, e⟩
    case rxHdr =>
      rw [blockStep_rxHdr hf hp]
      obtain ⟨hout, -⟩ | ⟨-, -, e⟩ | ⟨-, _, _, _, -, e⟩ | ⟨-, b, _, -, ⟨-, e⟩ | ⟨-, _, e⟩ | ⟨-, -, -, -, e⟩⟩ :=
        rxHdrStep_cases s
      · exact absurd (hhdr hp) (Nat.not_lt_of_le hout)
      all_goals exact ⟨_, e⟩
    case rxBody =>
      rw [blockStep_rxBody hf hp]
      obtain ⟨-, -, hin⟩ := hbody hp
      obtain ⟨hop, -⟩ := hbusy (by simp [hp])
      obtain ⟨hout, -⟩ | ⟨-, -, e⟩ | ⟨-, _, _, _, -, e⟩ | ⟨-, b, _, -, ⟨-, e⟩ | ⟨-, e⟩⟩ := rxBodyStep_cases s
      · exact absurd hin (Nat.not_lt_of_le hout)
      · exact ⟨_, e⟩
      · exact ⟨_, e⟩
      · exact ⟨_, e⟩
      · rw [e]
        refine complete_answers ?_ _ _
        exact hop

/-- Settles O59: of all that a step can do, only the step of the block can stop, and the invariant says that it does not. -/
theorem invariantStatesNeverStop : Obligations.InvariantStatesNeverStop := by
  rintro s ⟨-, hseq, -⟩
  obtain hs | ⟨-, hs⟩ | ⟨r, -, hs⟩ | ⟨-, hs⟩ | ⟨-, -, hs⟩ | ⟨lines, reads, hs⟩ | hs := step_cases s
  · exact .inl (hs ▸ blockStep_answers hseq)
  · exact .inl (hs ▸ blockStep_answers (s := s.nextLine) hseq)
  · exact .inl (hs ▸ exec_answers (decode r) s)
  · exact .inl ⟨_, hs⟩
  · exact .inl ⟨_, hs⟩
  · exact .inl ⟨_, hs⟩
  · exact .inr hs

end Sys2Proof.Machine
end

section
/-! PROOF. The transport's two streams and the host's lines: which step moves them, and which step moves nothing
(20_memory.md R51 to R53, R58 to R60, R64, R67). -/

namespace Sys2Proof.Machine

/-- What a step from `s` to `t` can do to the streams: nothing; use one answer in TX, and with it send at most the byte at
`txidx`; or read one item in a receive phase (20_memory.md R53, R58, R64). -/
abbrev State.StreamsMove (s t : State) : Prop :=
  (t.rx = s.rx ∧ t.txAns = s.txAns ∧ t.sent = s.sent)
  ∨ (s.phase = .tx ∧ t.rx = s.rx ∧ (∃ a, s.txAns = a :: t.txAns)
    ∧ (t.sent = s.sent ∨ ∃ b, s.txbuf[s.txidx]? = some b ∧ t.sent = s.sent ++ [b]))
  ∨ ((s.phase = .rxHdr ∨ s.phase = .rxBody) ∧ (∃ item, s.rx = item :: t.rx) ∧ t.txAns = s.txAns ∧ t.sent = s.sent)

/-- A step of the block moves the streams only in the phase of each. -/
theorem blockStep_streams {s t : State} (e : blockStep s = .next t) : s.StreamsMove t := by
  obtain rfl | ⟨-, htx | hhdr | hbdy⟩ := blockStep_next e
  · exact .inl ⟨rfl, rfl, rfl⟩
  · obtain ⟨hp, b, ans, hb, -, ⟨ha, -, rfl⟩ | ⟨ha, -, rfl⟩ | ⟨ha, r, -, rfl⟩⟩ := htx
    · exact .inr (.inl ⟨hp, rfl, ⟨_, ha⟩, .inr ⟨b, hb, rfl⟩⟩)
    · exact .inr (.inl ⟨hp, rfl, ⟨_, ha⟩, .inr ⟨b, hb, rfl⟩⟩)
    · exact .inr (.inl ⟨hp, rfl, ⟨_, ha⟩, .inl rfl⟩)
  · obtain ⟨hp, -, x, items, hx, ⟨k, n, r, -, -, rfl⟩ | ⟨b, -, rfl⟩ | ⟨b, -, -, -, -, rfl⟩⟩ := hhdr
    all_goals exact .inr (.inr ⟨.inl hp, ⟨x, hx⟩, rfl, rfl⟩)
  · obtain ⟨hp, -, x, items, hx, ⟨r, -, rfl⟩ | ⟨b, -, rfl⟩ | ⟨b, r, -, -, rfl⟩⟩ := hbdy
    all_goals exact .inr (.inr ⟨.inr hp, ⟨x, hx⟩, rfl, rfl⟩)

/-- A request moves the host past its line and touches neither stream, whether it is accepted or not (20_memory.md R60;
60_exceptions.md R236). -/
theorem exec_todo_and_streams {i : Instr} {s t : State} (e : exec i s = .next t) :
    t.todo = s.todo.tail ∧ t.rx = s.rx ∧ t.txAns = s.txAns ∧ t.sent = s.sent := by
  obtain rfl | ⟨-, c, -, rfl⟩ | ⟨-, -, code, r, -, rfl⟩ | ⟨-, -, code, c, d, a, -, -, rfl⟩ := exec_next e
  all_goals exact ⟨rfl, rfl, rfl, rfl⟩

/-- Of all that a step of the machine can do, only a step of the block moves a stream; reset does not
(70_reset_and_hazards.md R261). -/
theorem step_streams {s t : State} (e : step s = .next t) : s.StreamsMove t := by
  obtain hs | ⟨-, hs⟩ | ⟨r, -, hs⟩ | ⟨-, hs⟩ | ⟨-, -, hs⟩ | ⟨lines, reads, hs⟩ | hs := step_cases s
  all_goals rw [hs] at e
  · exact blockStep_streams e
  · exact blockStep_streams (s := s.nextLine) e
  · obtain ⟨-, hstreams⟩ := exec_todo_and_streams e
    exact .inl hstreams
  · cases e
    exact .inl ⟨rfl, rfl, rfl⟩
  · cases e
    exact .inl (by simp)
  · cases e
    exact .inl ⟨rfl, rfl, rfl⟩
  · cases e

/-- Settles O54, by the three things a step can do to the streams. -/
theorem streamsMoveOneItemInTheirPhase : Obligations.StreamsMoveOneItemInTheirPhase := by
  intro s t e
  obtain ⟨hrx, hans, hsent⟩ | ⟨hp, hrx, hans, hsent⟩ | ⟨hp, hrx, hans, hsent⟩ := step_streams e
  · exact ⟨.inl hrx, .inl hsent, .inl hans⟩
  · exact ⟨.inl hrx, hsent.imp_right fun hb => ⟨hp, hb, hrx⟩, .inr ⟨hp, hans⟩⟩
  · exact ⟨.inr ⟨hp, hrx, hsent, hans⟩, .inl hsent, .inl hans⟩

/-- Settles O1: every instruction answers a next state, and there the host is past the request's line. -/
theorem stepRunsThePresentedRequest : Obligations.StepRunsThePresentedRequest := by
  intro s r rest h
  have hstep : step s = exec (decode r) s := by simp [step, h]
  obtain ⟨t, e⟩ := exec_answers (decode r) s
  obtain ⟨htodo, -⟩ := exec_todo_and_streams e
  exact ⟨hstep, t, hstep.trans e, by simp [htodo, h]⟩

/-- The TX step waits while the transmit side gives no answer (20_memory.md R51). -/
theorem txStep_waits {s : State} (hi : s.txidx < s.txbuf.length) (ha : s.txAns = []) : txStep s = .next s := by
  simp [txStep, hi, ha]

/-- The RX_HDR step waits while the stream offers no item (20_memory.md R52; 42_frame_parser.md R149). -/
theorem rxHdrStep_waits {s : State} (hc : s.hcnt < 4) (hr : s.rx = []) : rxHdrStep s = .next s := by
  simp [rxHdrStep, hc, hr]

/-- The RX_BODY step waits as the RX_HDR step does (20_memory.md R52; 42_frame_parser.md R149). -/
theorem rxBodyStep_waits {s : State} (hc : s.bcnt < s.rlen) (hr : s.rx = []) : rxBodyStep s = .next s := by
  simp [rxBodyStep, hc, hr]

/-- Settles O41: a faulted or idle block is still, and one without a fault takes the step of its phase, which waits. -/
theorem waitingChangesNothing : Obligations.WaitingChangesNothing := by
  intro s
  cases hf : s.fault
  case true =>
    have hstill := blockStep_still (.inl hf)
    exact ⟨fun _ => hstill, fun _ => hstill, fun _ _ _ => hstill, fun _ _ _ => hstill, fun _ _ _ => hstill⟩
  case false =>
    refine ⟨nofun, fun hp => blockStep_still (.inr hp), fun hp hi ha => ?_, fun hp hc hr => ?_, fun hp hc hr => ?_⟩
    · rw [blockStep_tx hf hp, txStep_waits hi ha]
    · rw [blockStep_rxHdr hf hp, rxHdrStep_waits hc hr]
    · rw [blockStep_rxBody hf hp, rxBodyStep_waits hc hr]

end Sys2Proof.Machine
end

section
/-! PROOF. Request records and pseudo-operations: decoding by the operation code, the round trip of encoding and decoding,
and the expansions (30_encoding.md R77, R80, R81, R83, R84, R87). -/

namespace Sys2Proof

/-- Settles O2: for each of the sixteen codes the decoder's case computes, whatever the other fields hold. -/
theorem requestRecordsDecodeByOperationCode : Obligations.RequestRecordsDecodeByOperationCode :=
  fun _ _ _ _ _ _ =>
    ⟨rfl, rfl, rfl, rfl, rfl, rfl, rfl, rfl, rfl, rfl, rfl, rfl, rfl, rfl, rfl, rfl⟩

/-- A code from 0xB on fails every test of a row before it and is a reserved one (30_encoding.md R83). -/
theorem decodeReq_of_high {q : Req} (h : 0xB ≤ q.op.toNat) : decodeReq q = .reservedHigh q.op := by
  unfold decodeReq
  split
  case h_12 => rfl
  all_goals omega

/-- Only the reserved high codes ask anything of an instruction's form, and a record decodes to one of them only when its
code is none of the table's rows before them (30_encoding.md R80, R83). -/
theorem wellFormed_decodeReq (q : Req) : WellFormed (decodeReq q) = true := by
  unfold decodeReq
  split
  case h_12 =>
    simp only [imp_false] at *
    exact decide_eq_true (by omega)
  all_goals rfl

/-- A raw command decodes to one of the six wire commands or to a raw exchange (30_encoding.md R77, R84). -/
theorem wellFormed_decodeWire (c : Half) (data : List Byte) : WellFormed (decodeWire c data) = true := by
  unfold decodeWire
  split_ifs <;> rfl

theorem wellFormed_decode (r : Request) : WellFormed (decode r) = true := by
  cases r with
  | record q => exact wellFormed_decodeReq q
  | wire c data => exact wellFormed_decodeWire c data

/-- The request of a well-formed instruction decodes to the instruction: a record's code selects its row, and a wire
command's code passes the tests of the other five (R6's premise). -/
theorem decode_encode {i : Instr} (h : WellFormed i = true) : decode (encode i) = i := by
  cases i with
  | reservedHigh op => exact decodeReq_of_high (q := { op := op }) (of_decide_eq_true h)
  | cmdBeep data => exact decode_wire_cmdBeep data
  | cmdRead data => exact decode_wire_cmdRead data
  | cmdInfo data => exact decode_wire_cmdInfo data
  | cmdLed data => exact decode_wire_cmdLed data
  | cmdWrite2 data => exact decode_wire_cmdWrite2 data
  | cmdWrite3 data => exact decode_wire_cmdWrite3 data
  | _ => rfl

/-- Settles O4: the round trip, instruction by instruction, and the form of what is decoded, request by request. -/
theorem decodeInvertsEncode : Obligations.DecodeInvertsEncode :=
  ⟨fun _ h => decode_encode h, wellFormed_decode⟩

/-- A duration that a value of `ns` holds is presented as that value (30_encoding.md R81). -/
theorem beepOfDuration_of_toNat_eq {n factor : Nat} {ns : BitVec 64} (h : ns.toNat = n * factor) :
    beepOfDuration n factor = some (.beepNs ns) := by
  have hfits : n * factor < 2 ^ 64 := h ▸ ns.isLt
  have hns : BitVec.ofNat 64 (n * factor) = ns := by rw [← h, BitVec.ofNat_toNat, BitVec.setWidth_eq]
  rw [beepOfDuration, if_pos hfits, hns]

/-- Settles O6: the rows of the list compute, and a duration in milliseconds or seconds is one that `ns` holds. -/
theorem pseudoOperationsExpand : Obligations.PseudoOperationsExpand :=
  ⟨fun _ => ⟨rfl, rfl⟩, rfl, rfl, rfl, rfl, fun _ _ h => beepOfDuration_of_toNat_eq h,
    fun _ _ h => beepOfDuration_of_toNat_eq h⟩

end Sys2Proof
end

section
/-! PROOF. The layouts of frames: first of a frame around any covered bytes, then the fields a request and a response cover
(30_encoding.md R70 to R72; 41_frame_encoder.md R120, R125). -/

namespace Sys2Proof.Machine

/-- The slice of three pieces that holds the middle one. -/
theorem slice_middle {p m q : List Byte} {i j : Nat} (hstart : p.length = i) (hend : i + m.length = j) :
    slice (p ++ m ++ q) i j = m := by
  subst hstart hend
  simp [slice]

/-- The last byte of a sequence. -/
theorem byteAt_concat {p : List Byte} {b : Byte} {j : Nat} (hj : p.length = j) : byteAt (p ++ [b]) j = b := by
  subst hj
  exact byteAt_append_right p [b] 0

/-- A frame, byte by byte around its covered bytes (41_frame_encoder.md R120, R125). -/
theorem frameOf_eq (covered : List Byte) :
    frameOf covered = [0xAA, 0xDD, hi (BitVec.ofNat 16 (covered.length + 1)), lo (BitVec.ofNat 16 (covered.length + 1))]
      ++ covered ++ [xorAll covered] := rfl

theorem frameOf_length (covered : List Byte) : (frameOf covered).length = 5 + covered.length := by
  simp [frameOf_eq]
  omega

/-- The length field holds one more than the number of covered bytes (30_encoding.md R71). -/
theorem frameOf_lengthField {covered : List Byte} (h : covered.length + 1 ≤ 65535) :
    be16 (byteAt (frameOf covered) 2) (byteAt (frameOf covered) 3) = covered.length + 1 :=
  be16_ofNat h

/-- The bytes between the length field and the checksum byte are the covered ones. -/
theorem slice_frameOf {covered : List Byte} {j : Nat} (hj : 4 + covered.length = j) :
    slice (frameOf covered) 4 j = covered :=
  slice_middle rfl hj

/-- The last byte is the checksum of the covered ones, as the frame holds them. -/
theorem byteAt_frameOf_last {covered : List Byte} {j : Nat} (hj : 4 + covered.length = j) :
    byteAt (frameOf covered) j = xorAll (slice (frameOf covered) 4 j) := by
  rw [slice_frameOf hj, frameOf_eq]
  refine byteAt_concat ?_
  simp
  omega

/-- The fields that a covered sequence begins with are followed, in the frame, by the rest of it. -/
theorem slice_frameOf_append (fields rest : List Byte) {i j : Nat} (hstart : 4 + fields.length = i)
    (hend : i + rest.length = j) : slice (frameOf (fields ++ rest)) i j = rest := by
  rw [frameOf_eq, ← List.append_assoc]
  refine slice_middle ?_ hend
  simp
  omega

/-- Settles O27: both frames are a frame around their fields, and the fields' first bytes are the command's. -/
theorem frameLayouts : Obligations.FrameLayouts := by
  refine ⟨fun c d h => ?_, fun c st a h => ?_⟩
  · have hcovered : ([hi c, lo c] ++ d).length = 2 + d.length := by simp; omega
    refine ⟨?_, rfl, rfl, ?_, be16_hi_lo c, ?_, ?_⟩
    · exact (frameOf_length _).trans (by omega)
    · exact (frameOf_lengthField (by omega)).trans (by omega)
    · exact slice_frameOf_append [hi c, lo c] d rfl rfl
    · exact byteAt_frameOf_last (by omega)
  · have hcovered : ([hi c, lo c, st] ++ a).length = 3 + a.length := by simp; omega
    refine ⟨?_, rfl, rfl, ?_, be16_hi_lo c, rfl, ?_, ?_⟩
    · exact (frameOf_length _).trans (by omega)
    · exact (frameOf_lengthField (by omega)).trans (by omega)
    · exact slice_frameOf_append [hi c, lo c, st] a rfl rfl
    · exact byteAt_frameOf_last (by omega)

end Sys2Proof.Machine
end

section
/-! PROOF. The wire commands, each the raw exchange of its code, and what the raw exchange does on a faultless idle block
(30_encoding.md R77, R84; 43_command_status.md R181, R182; 60_exceptions.md R236). -/

namespace Sys2Proof.Machine

/-- Data that fits the frame is accepted and the exchange starts (43_command_status.md R181, R182). -/
theorem execXchg_of_fits {c : Half} {data : List Byte} {s : State} (hf : s.fault = false) (hp : s.phase = .idle)
    (h : data.length ≤ 65532) : execXchg c data s = .next ((s.accepted 0x5).startExchange c data) := by
  have hgood : tooLong Config.maxReqData data = none := tooLong_eq_none.2 h
  rw [execXchg, hgood, accept_good hf hp]

/-- Data too long for the frame faults (60_exceptions.md R236). -/
theorem execXchg_of_tooLong {c : Half} {data : List Byte} {s : State} (hf : s.fault = false) (hp : s.phase = .idle)
    (h : 65532 < data.length) :
    execXchg c data s = .next { s.nextLine with fault := true, faultCode := .dataTooLong } := by
  have hbad : tooLong Config.maxReqData data = some .dataTooLong := tooLong_of_lt h
  rw [execXchg, hbad, accept_bad hf hp]

/-- Settles O24: each of the six is the raw exchange of its code, and the raw exchange accepts or faults by the length. -/
theorem wireCommandsAreAcceptedAsRawExchanges : Obligations.WireCommandsAreAcceptedAsRawExchanges := by
  intro i c data s hmem hf hp
  have hexec : exec i s = execXchg c data s := by
    simp only [List.mem_cons, Prod.mk.injEq, List.not_mem_nil, or_false] at hmem
    obtain ⟨rfl, rfl⟩ | ⟨rfl, rfl⟩ | ⟨rfl, rfl⟩ | ⟨rfl, rfl⟩ | ⟨rfl, rfl⟩ | ⟨rfl, rfl⟩ := hmem <;> rfl
  rw [hexec]
  exact ⟨fun h => ⟨_, _, execXchg_of_fits hf hp h⟩, execXchg_of_tooLong hf hp⟩

end Sys2Proof.Machine
end

section
/-! PROOF. The lines of a host script: the wait, the jumps and what passes a line (30_encoding.md R88). -/

namespace Sys2Proof.Machine

/-- Past its line, the host goes on with the rest. -/
theorem nextLine_of_todo {s : State} {line : HostLine} {rest : List HostLine} (h : s.todo = line :: rest) :
    s.nextLine = { s with todo := rest } := by
  simp [State.nextLine, h]

theorem step_of_await {s : State} {rest : List HostLine} (h : s.todo = .await :: rest) : step s = hostAwait s := by
  simp [step, h]

theorem step_of_idle {s : State} {rest : List HostLine} (h : s.todo = .idle :: rest) :
    step s = blockStep { s with todo := rest } := by
  rw [← nextLine_of_todo h]
  simp [step, h, hostIdle]

theorem step_of_halt {s : State} {rest : List HostLine} (h : s.todo = .halt :: rest) : step s = blockStep s := by
  simp [step, h, hostHalt]

theorem step_of_label {s : State} {name : Nat} {rest : List HostLine} (h : s.todo = .label name :: rest) :
    step s = .next { s with todo := rest } := by
  rw [← nextLine_of_todo h]
  simp [step, h, hostLabel]

theorem step_of_goto {s : State} {name : Nat} {rest : List HostLine} (h : s.todo = .goto name :: rest) :
    step s = hostGoto name s := by
  simp [step, h]

/-- An `if` line whose kind the last result read has is the jump. -/
theorem step_of_ifKind_eq {s : State} {kind : Kind} {name : Nat} {rest : List HostLine}
    (h : s.todo = .ifKind kind name :: rest) (hk : lastKind s.reads = some kind) : step s = hostGoto name s := by
  simp [step, h, hostIfKind, hk]

/-- An `if` line whose kind the last result read has not, or before any result, is passed. -/
theorem step_of_ifKind_ne {s : State} {kind : Kind} {name : Nat} {rest : List HostLine}
    (h : s.todo = .ifKind kind name :: rest) (hk : lastKind s.reads ≠ some kind) :
    step s = .next { s with todo := rest } := by
  rw [← nextLine_of_todo h]
  simp [step, h, hostIfKind, hk]

/-- A script that does not hold a label has no lines after it. -/
theorem linesAfter_of_notMem {name : Nat} {script : List HostLine} (h : HostLine.label name ∉ script) :
    linesAfter name script = none := by
  induction script with
  | nil => rfl
  | cons line rest ih =>
    obtain ⟨hne, hrest⟩ := not_or.1 (mt List.mem_cons.2 h)
    rw [linesAfter, if_neg (Ne.symm hne), ih hrest]

/-- The lines after a label are those after the first one of its name. -/
theorem linesAfter_append {name : Nat} {before : List HostLine} (h : HostLine.label name ∉ before)
    (after : List HostLine) : linesAfter name (before ++ .label name :: after) = some after := by
  induction before with
  | nil => simp [linesAfter]
  | cons line rest ih =>
    obtain ⟨hne, hrest⟩ := not_or.1 (mt List.mem_cons.2 h)
    rw [List.cons_append, linesAfter, if_neg (Ne.symm hne), ih hrest]

/-- A jump to a label the script does not hold stops (log entry 11). -/
theorem hostGoto_of_notMem {name : Nat} {s : State} (h : HostLine.label name ∉ s.script) :
    hostGoto name s = .fault .noSuchLabel := by
  simp [hostGoto, linesAfter_of_notMem h]

/-- A jump goes on after its first label (30_encoding.md R88). -/
theorem hostGoto_of_script {name : Nat} {s : State} {before after : List HostLine}
    (hs : s.script = before ++ .label name :: after) (h : HostLine.label name ∉ before) :
    hostGoto name s = .next { s with todo := after } := by
  simp [hostGoto, hs, linesAfter_append h]

/-- Readings of STATUS leave the last result what it was (log entry 11). -/
theorem lastKind_status_append (seen : List Half) (reads : List HostRead) :
    lastKind (seen.map .status ++ reads) = lastKind reads := by
  induction seen with
  | nil => rfl
  | cons v seen ih => exact ih

/-- The wait ends the script at a fault, reads a result, and otherwise lets the block step (30_encoding.md R88). -/
theorem hostAwait_of_todo {s : State} {rest : List HostLine} (h : s.todo = .await :: rest) :
    (s.fault = true → hostAwait s = .next s)
    ∧ (s.fault = false → s.resValid = true →
      hostAwait s = .next { s with todo := rest, reads := .result s.res :: s.reads })
    ∧ (s.fault = false → s.resValid = false → hostAwait s = blockStep s) := by
  refine ⟨fun hf => ?_, fun hf hv => ?_, fun hf hv => ?_⟩
  · simp [hostAwait, hf]
  · simp [hostAwait, hf, hv, nextLine_of_todo h]
  · simp [hostAwait, hf, hv]

/-- Settles O52, line by line: the wait, the lines that are passed or let the block step, the jump, and the `if` line by the
kind of the last result read. -/
theorem scriptLinesWaitAndMove : Obligations.ScriptLinesWaitAndMove := by
  refine ⟨fun s rest h => ?_, fun s name rest => ?_, fun s kind name rest seen h => ?_⟩
  · rw [step_of_await h]
    exact hostAwait_of_todo h
  · exact ⟨step_of_todo_nil, step_of_idle, step_of_halt, step_of_label,
      fun hl h => (step_of_goto h).trans (hostGoto_of_notMem hl),
      fun _ _ hs hb h => (step_of_goto h).trans (hostGoto_of_script hs hb)⟩
  · refine ⟨fun hr => ?_, fun r reads hr => ?_⟩
    · have hnone : lastKind s.reads = none := by
        rw [hr, ← List.append_nil (seen.map _), lastKind_status_append]
        rfl
      exact step_of_ifKind_ne h (by simp [hnone])
    · have hlast : lastKind s.reads = some (kindOf r) := by
        rw [hr, lastKind_status_append]
        rfl
      refine ⟨fun hk => ?_, fun hk hl => ?_, fun hk before after hs hb => ?_⟩
      · exact step_of_ifKind_ne h (by simp [hlast, hk])
      · rw [step_of_ifKind_eq h (by rw [hlast, hk]), hostGoto_of_notMem hl]
      · rw [step_of_ifKind_eq h (by rw [hlast, hk]), hostGoto_of_script hs hb]

end Sys2Proof.Machine
end

section
/-! PROOF. The checksum as bitwise parity, what follows from that for damaged frames, and `CSUM` (40_checksum.md R101,
R102, R106, R107). -/

namespace Sys2Proof.Machine

/-- Bit `k` of the checksum is the parity of bit `k` over the bytes (40_checksum.md R101). -/
theorem getLsbD_xorAll (s : List Byte) (k : Nat) :
    (xorAll s).getLsbD k = decide (s.countP (fun b => b.getLsbD k) % 2 = 1) := by
  induction s with
  | nil => simp
  | cons b s ih =>
    rw [xorAll_cons, BitVec.getLsbD_xor, ih, List.countP_cons]
    cases hb : b.getLsbD k with
    | false => simp
    | true =>
      have hflip (n : Nat) : decide ((n + 1) % 2 = 1) = !decide (n % 2 = 1) := by
        rw [← decide_not, decide_eq_decide]
        omega
      simp only [Bool.true_xor, if_true, hflip]

/-- The order of the bytes does not matter: a permutation counts the same bits (40_checksum.md R101). -/
theorem xorAll_eq_of_perm {s t : List Byte} (h : s.Perm t) : xorAll s = xorAll t := by
  refine BitVec.eq_of_getLsbD_eq fun k _ => ?_
  rw [getLsbD_xorAll, getLsbD_xorAll, h.countP_eq]

/-- Behind covered bytes, the checksum byte is right exactly when the whole body's checksum is 0x00 (40_checksum.md
R102). -/
theorem xorAll_concat_eq_zero (covered : List Byte) (ck : Byte) :
    xorAll (covered ++ [ck]) = 0x00 ↔ xorAll covered = ck := by
  simp [xorAll_append]

/-- Settles O25: the parity law gives the order, and the rest is the algebra of exclusive-or. -/
theorem checksumIsBitwiseParityInAnyOrder : Obligations.ChecksumIsBitwiseParityInAnyOrder := by
  refine ⟨getLsbD_xorAll, fun _ _ => xorAll_eq_of_perm, fun b s => ⟨?_, ?_⟩, fun covered ck => ?_⟩
  · simp
  · rw [xorAll_cons, xorAll_cons, ← BitVec.xor_assoc, BitVec.xor_self, BitVec.zero_xor]
  · exact (xorAll_concat_eq_zero covered ck).symm

/-- A mask that flips some bit position an odd number of times has a checksum with that bit set. -/
theorem xorAll_ne_zero_of_odd {m : List Byte} {k : Nat} (h : m.countP (fun b => b.getLsbD k) % 2 = 1) :
    xorAll m ≠ 0x00 := by
  intro hzero
  have hbit := getLsbD_xorAll m k
  simp [hzero, h] at hbit

/-- A body whose exclusive-or is not 0x00 fails the checksum test (42_frame_parser.md R146). -/
theorem parseBody_of_xorAll_ne_zero {r : List Byte} (h : xorAll r ≠ 0x00) :
    ∃ a b, a ≠ b ∧ parseBody r = .error (.integrity a b) := by
  obtain rfl | ⟨covered, ck, rfl⟩ := r.eq_nil_or_concat'
  · exact absurd rfl h
  · have hne : xorAll covered ≠ ck := mt (xorAll_concat_eq_zero covered ck).2 h
    have hck : byteAt (covered ++ [ck]) covered.length = ck := byteAt_concat rfl
    exact ⟨xorAll covered, ck, hne, by simp [parseBody, slice_front, hck, hne]⟩

/-- Parsing a good header and the whole body it declares is the check of that body (42_frame_parser.md R141, R146). -/
theorem parse_wholeBody {l2 l3 : Byte} {r : List Byte} (hlen : be16 l2 l3 = r.length) (hmin : 4 ≤ r.length)
    (rest : List RxItem) :
    parse (([hi Config.framePrefix, lo Config.framePrefix, l2, l3] ++ r).map .byte ++ rest)
      = some (parseBody r, 4 + r.length, rest) := by
  rw [List.map_append, List.append_assoc, parse_good (hlen ▸ hmin), hlen, takeBytes_bytes]

/-- Settles O26: the flipped body's checksum is the mask's, which has the odd bit set. -/
theorem oddBitFlipsFailWithIntegrityError : Obligations.OddBitFlipsFailWithIntegrityError := by
  intro l2 l3 r m k rest hlen hmin hvalid hm hodd
  have hflipped : xorAll (List.zipWith (· ^^^ ·) r m) ≠ 0x00 := by
    simpa [xorAll_zipWith hm, hvalid] using xorAll_ne_zero_of_odd hodd
  have hkeep : (List.zipWith (· ^^^ ·) r m).length = r.length := by simp [hm]
  obtain ⟨a, b, hab, hbody⟩ := parseBody_of_xorAll_ne_zero hflipped
  refine ⟨hflipped, a, b, hab, ?_⟩
  rw [parse_wholeBody (hlen.trans hkeep.symm) (hkeep ▸ hmin), hbody, hkeep]

/-- On an idle block, finishing writes the result and its flag alone (10_state.md R31). -/
theorem finish_of_idle {s : State} (hp : s.phase = .idle) (r : Result) :
    s.finish r = { s with res := r, resValid := true } := by
  rw [State.finish, ← hp]

/-- `CSUM` on a faultless idle block is accepted and finishes with the checksum (40_checksum.md R106). -/
theorem execCsum_of_idle (data : List Byte) {s : State} (hf : s.fault = false) (hp : s.phase = .idle) :
    execCsum data s = .next { s.accepted 0x1 with res := .checksum (xorAll data), resValid := true } := by
  rw [execCsum, accept_good hf hp, finish_of_idle (s := s.accepted 0x1) hp]

/-- Settles O14: the acceptance finishes with the checksum; the corner cases are laws of exclusive-or. -/
theorem csumGivesTheChecksum : Obligations.CsumGivesTheChecksum := by
  refine ⟨fun data s hf hp => ⟨_, _, execCsum_of_idle data hf hp⟩, xorAll_nil, fun b => ?_, fun data => ?_, by decide⟩
  · simp
  · exact (xorAll_concat_eq_zero data _).2 rfl

end Sys2Proof.Machine
end

section
/-! PROOF. Frames around any covered bytes: they are valid and the parser reads them back whole; from that the response
frame's round trip, and the three operations that make a frame (41_frame_encoder.md R120 to R129). -/

namespace Sys2Proof.Machine

/-- The parser reads a whole frame and nothing behind it, and its outcome is the check of the frame's body: three
covered bytes reach the least length it accepts (41_frame_encoder.md R128; 42_frame_parser.md R141, R144). -/
theorem parse_frameOf {covered : List Byte} (hmin : 3 ≤ covered.length) (hmax : covered.length + 1 ≤ 65535)
    (rest : List RxItem) :
    parse ((frameOf covered).map .byte ++ rest)
      = some (parseBody (covered ++ [xorAll covered]), 5 + covered.length, rest) := by
  have hbody : (covered ++ [xorAll covered]).length = covered.length + 1 := by simp
  have hcount : 4 + (covered ++ [xorAll covered]).length = 5 + covered.length := by omega
  have hfield : be16 (hi (BitVec.ofNat 16 (covered.length + 1))) (lo (BitVec.ofNat 16 (covered.length + 1)))
      = (covered ++ [xorAll covered]).length := (be16_ofNat hmax).trans hbody.symm
  rw [← hcount]
  exact parse_wholeBody hfield (by omega) rest

/-- A body of fields and their checksum gives the fields (42_frame_parser.md R146, R147; 30_encoding.md R82). -/
theorem parseBody_of_valid (c : Half) (st : Byte) (a : List Byte) :
    parseBody ([hi c, lo c, st] ++ a ++ [xorAll ([hi c, lo c, st] ++ a)]) = .ok c st a := by
  rw [parseBody_fields, if_neg (not_not_intro rfl), joinHalf_hi_lo]

/-- Settles O35: the response frame is a frame around its fields, the parser reads its body whole, and the body's check
gives the fields. -/
theorem parserInvertsResponseEncoder : Obligations.ParserInvertsResponseEncoder := by
  intro c st a rest h
  have hcovered : ([hi c, lo c, st] ++ a).length = 3 + a.length := by simp; omega
  have hcount : 5 + ([hi c, lo c, st] ++ a).length = 8 + a.length := by omega
  rw [encodeRsp, parse_frameOf (by omega) (by omega), parseBody_of_valid, hcount]

/-- A frame whose covered bytes fit the length field is valid (41_frame_encoder.md R129). -/
theorem validFrame_frameOf {covered : List Byte} (h : covered.length + 1 ≤ 65535) : ValidFrame (frameOf covered) := by
  have hlen := frameOf_length covered
  have hfield := frameOf_lengthField h
  have hxor : xorAll ((frameOf covered).drop 4) = 0x00 := (xorAll_concat_eq_zero covered _).2 rfl
  exact ⟨by omega, by omega, rfl, rfl, by omega, hxor⟩

/-- Settles O28: a request frame is valid as the machine's invariant has it, a response frame as a frame around its
fields. -/
theorem encodedFramesAreValid : Obligations.EncodedFramesAreValid := by
  refine ⟨fun c d h => validFrame_encodeReq c h, fun c st a h => ?_⟩
  have hcovered : ([hi c, lo c, st] ++ a).length = 3 + a.length := by simp; omega
  exact validFrame_frameOf (by omega)

/-- Data beyond its limit faults, whatever the operation would do (60_exceptions.md R236). -/
theorem accept_of_tooLong {code : BitVec 4} {limit : Nat} {data : List Byte} {act : State → State} {s : State}
    (hf : s.fault = false) (hp : s.phase = .idle) (h : limit < data.length) :
    accept code (tooLong limit data) act s = .next { s.nextLine with fault := true, faultCode := .dataTooLong } := by
  rw [tooLong_of_lt h, accept_bad hf hp]

/-- A one-step operation with data within its limit completes in the acceptance step (10_state.md R31, R41). -/
theorem accept_finish_of_fits {code : BitVec 4} {limit : Nat} {data : List Byte} {r : Result} {s : State}
    (hf : s.fault = false) (hp : s.phase = .idle) (h : data.length ≤ limit) :
    accept code (tooLong limit data) (fun t => t.finish r) s
      = .next { s.accepted code with res := r, resValid := true } := by
  rw [tooLong_eq_none.2 h, accept_good hf hp, finish_of_idle (s := s.accepted code) hp]

/-- `ENC_REQ` with data that fits completes with the request frame (41_frame_encoder.md R121). -/
theorem execEncReq_of_fits {c : Half} {data : List Byte} {s : State} (hf : s.fault = false) (hp : s.phase = .idle)
    (h : data.length ≤ 65532) :
    execEncReq c data s = .next { s.accepted 0x2 with res := .frame (encodeReq c data), resValid := true } :=
  accept_finish_of_fits (limit := Config.maxReqData) hf hp h

/-- `ENC_REQ` with data too long for the frame faults (41_frame_encoder.md R123). -/
theorem execEncReq_of_tooLong {c : Half} {data : List Byte} {s : State} (hf : s.fault = false) (hp : s.phase = .idle)
    (h : 65532 < data.length) :
    execEncReq c data s = .next { s.nextLine with fault := true, faultCode := .dataTooLong } :=
  accept_of_tooLong (limit := Config.maxReqData) hf hp h

/-- `ENC_RSP` with an answer that fits completes with the response frame (41_frame_encoder.md R126). -/
theorem execEncRsp_of_fits {c : Half} {st : Byte} {answer : List Byte} {s : State} (hf : s.fault = false)
    (hp : s.phase = .idle) (h : answer.length ≤ 65531) :
    execEncRsp c st answer s = .next { s.accepted 0x3 with res := .frame (encodeRsp c st answer), resValid := true } :=
  accept_finish_of_fits (limit := Config.maxRspAnswer) hf hp h

/-- `ENC_RSP` with an answer too long for the frame faults (41_frame_encoder.md R127). -/
theorem execEncRsp_of_tooLong {c : Half} {st : Byte} {answer : List Byte} {s : State} (hf : s.fault = false)
    (hp : s.phase = .idle) (h : 65531 < answer.length) :
    execEncRsp c st answer s = .next { s.nextLine with fault := true, faultCode := .dataTooLong } :=
  accept_of_tooLong (limit := Config.maxRspAnswer) hf hp h

/-- Settles O15: `ENC_REQ` finishes with the request frame, byte by byte, when the data fits, and faults above. -/
theorem encReqGivesTheRequestFrame : Obligations.EncReqGivesTheRequestFrame := by
  refine fun cmd data s hf hp =>
    ⟨fun h => ⟨Config.freeArg s.draws, s.draws + 1, ?_⟩, execEncReq_of_tooLong hf hp⟩
  rw [← encodeReq_eq]
  exact execEncReq_of_fits hf hp h

/-- Settles O16: `ENC_RSP` finishes with the response frame, byte by byte, when the answer fits, and faults above. -/
theorem encRspGivesTheResponseFrame : Obligations.EncRspGivesTheResponseFrame := by
  refine fun cmd st answer s hf hp =>
    ⟨fun h => ⟨Config.freeArg s.draws, s.draws + 1, ?_⟩, execEncRsp_of_tooLong hf hp⟩
  rw [← encodeRsp_eq]
  exact execEncRsp_of_fits hf hp h

/-- Settles O18: `XCHG` starts the exchange of the request frame, byte by byte, when the data fits, and faults above. -/
theorem xchgIsAccepted : Obligations.XchgIsAccepted := by
  refine fun cmd data s hf hp =>
    ⟨fun h => ⟨Config.freeArg s.draws, s.draws + 1, ?_⟩, execXchg_of_tooLong hf hp⟩
  rw [← encodeReq_eq]
  exact execXchg_of_fits hf hp h

end Sys2Proof.Machine
end

section
/-! PROOF. The parser's outcomes: every stream has one of seven shapes, and on each the parse is known; from that the
framing errors, the transport errors, the fields of a whole body and the consumed items (42_frame_parser.md R141 to
R148). -/

namespace Sys2Proof.Machine

/-- A stream that offers too little for a header (42_frame_parser.md R155). -/
theorem parse_headerWaits {h : List Byte} (hshort : h.length < 4) : parse (h.map .byte) = none := by
  simp [parse, takeBytes_waiting h hshort]

/-- A stream that ends inside the header (42_frame_parser.md R142). -/
theorem parse_headerEnds {h : List Byte} (hshort : h.length < 4) (term : Term) (rest : List RxItem) :
    parse (h.map .byte ++ termItem term :: rest) = some (.error (.shortHeader h.length term), h.length, rest) := by
  simp [parse, takeBytes_ended h term rest hshort]

/-- A whole header without `PREFIX` in front (42_frame_parser.md R143). -/
theorem parse_badPrefix {b0 b1 : Byte} (hpre : b0 ≠ hi Config.framePrefix ∨ b1 ≠ lo Config.framePrefix) (b2 b3 : Byte)
    (rest : List RxItem) :
    parse ([b0, b1, b2, b3].map .byte ++ rest) = some (.error (.badPrefix b0 b1), 4, rest) := by
  rw [parse_header, if_pos hpre]

/-- `PREFIX` in front and a declared length that is too small (42_frame_parser.md R144). -/
theorem parse_badLength {b2 b3 : Byte} (hlen : be16 b2 b3 < 4) (rest : List RxItem) :
    parse ([hi Config.framePrefix, lo Config.framePrefix, b2, b3].map .byte ++ rest)
      = some (.error (.badLength (be16 b2 b3)), 4, rest) := by
  rw [parse_header, if_neg (by simp), if_pos hlen]

/-- A stream that offers too little for the declared body (42_frame_parser.md R155). -/
theorem parse_bodyWaits {b2 b3 : Byte} {r : List Byte} (hmin : 4 ≤ be16 b2 b3) (hshort : r.length < be16 b2 b3) :
    parse (([hi Config.framePrefix, lo Config.framePrefix, b2, b3] ++ r).map .byte) = none := by
  rw [List.map_append, parse_good hmin, takeBytes_waiting r hshort]

/-- A stream that ends inside the body (42_frame_parser.md R145). -/
theorem parse_bodyEnds {b2 b3 : Byte} {r : List Byte} (hmin : 4 ≤ be16 b2 b3) (hshort : r.length < be16 b2 b3)
    (term : Term) (rest : List RxItem) :
    parse (([hi Config.framePrefix, lo Config.framePrefix, b2, b3] ++ r).map .byte ++ termItem term :: rest)
      = some (.error (bodyEnd r.length term), 4 + r.length, rest) := by
  rw [List.map_append, List.append_assoc, parse_good hmin, takeBytes_ended r term rest hshort]

/-- The shapes of a receive stream, by where reading it as a frame stops (42_frame_parser.md R141, R155). -/
inductive StreamShape : List RxItem → Prop where
  | headerWaits (h : List Byte) (hshort : h.length < 4) : StreamShape (h.map .byte)
  | headerEnds (h : List Byte) (term : Term) (rest : List RxItem) (hshort : h.length < 4) :
      StreamShape (h.map .byte ++ termItem term :: rest)
  | badPrefix (b0 b1 b2 b3 : Byte) (rest : List RxItem)
      (hpre : b0 ≠ hi Config.framePrefix ∨ b1 ≠ lo Config.framePrefix) :
      StreamShape ([b0, b1, b2, b3].map .byte ++ rest)
  | badLength (b2 b3 : Byte) (rest : List RxItem) (hlen : be16 b2 b3 < 4) :
      StreamShape ([hi Config.framePrefix, lo Config.framePrefix, b2, b3].map .byte ++ rest)
  | bodyWaits (b2 b3 : Byte) (r : List Byte) (hmin : 4 ≤ be16 b2 b3) (hshort : r.length < be16 b2 b3) :
      StreamShape (([hi Config.framePrefix, lo Config.framePrefix, b2, b3] ++ r).map .byte)
  | bodyEnds (b2 b3 : Byte) (r : List Byte) (term : Term) (rest : List RxItem) (hmin : 4 ≤ be16 b2 b3)
      (hshort : r.length < be16 b2 b3) :
      StreamShape (([hi Config.framePrefix, lo Config.framePrefix, b2, b3] ++ r).map .byte ++ termItem term :: rest)
  | wholeBody (b2 b3 : Byte) (r : List Byte) (rest : List RxItem) (hmin : 4 ≤ r.length)
      (hlen : be16 b2 b3 = r.length) :
      StreamShape (([hi Config.framePrefix, lo Config.framePrefix, b2, b3] ++ r).map .byte ++ rest)

/-- A stream behind a good header has one of the last three shapes. -/
theorem streamShape_goodHeader {b2 b3 : Byte} (hmin : 4 ≤ be16 b2 b3) (rest : List RxItem) :
    StreamShape ([hi Config.framePrefix, lo Config.framePrefix, b2, b3].map .byte ++ rest) := by
  obtain ⟨r, left, hlen, rfl, -⟩ | ⟨r, term, left, hshort, rfl, -⟩ | ⟨r, hshort, rfl, -⟩ :=
    takeBytes_cases (be16 b2 b3) rest
  · rw [← List.append_assoc, ← List.map_append]
    exact .wholeBody b2 b3 r left (hlen ▸ hmin) hlen.symm
  · rw [← List.append_assoc, ← List.map_append]
    exact .bodyEnds b2 b3 r term left hmin hshort
  · rw [← List.map_append]
    exact .bodyWaits b2 b3 r hmin hshort

/-- Every stream has one of the seven shapes. -/
theorem streamShape (items : List RxItem) : StreamShape items := by
  obtain ⟨h, rest, hlen, rfl, -⟩ | ⟨h, term, rest, hshort, rfl, -⟩ | ⟨h, hshort, rfl, -⟩ := takeBytes_cases 4 items
  · obtain ⟨b0, b1, b2, b3, rfl⟩ := List.length_eq_four.1 hlen
    by_cases hpre : b0 ≠ hi Config.framePrefix ∨ b1 ≠ lo Config.framePrefix
    · exact .badPrefix b0 b1 b2 b3 rest hpre
    · obtain ⟨rfl, rfl⟩ : b0 = hi Config.framePrefix ∧ b1 = lo Config.framePrefix := by simpa using hpre
      by_cases hmin : 4 ≤ be16 b2 b3
      · exact streamShape_goodHeader hmin rest
      · exact .badLength b2 b3 rest (by omega)
  · exact .headerEnds h term rest hshort
  · exact .headerWaits h hshort

/-- The check of a whole body gives fields or an integrity error, nothing else (42_frame_parser.md R146, R147). -/
theorem parseBody_cases (r : List Byte) :
    (∃ a b, parseBody r = .error (.integrity a b)) ∨ ∃ c st a, parseBody r = .ok c st a := by
  by_cases hck : xorAll (slice r 0 (r.length - 1)) = byteAt r (r.length - 1)
  · exact .inr ⟨_, _, _, if_neg (not_not_intro hck)⟩
  · exact .inl ⟨_, _, if_pos hck⟩

/-- Behind a good header no outcome is a framing error, the class 2 of error records (42_frame_parser.md R145, R146;
60_exceptions.md R233). -/
theorem errorClass_of_parse_good {b2 b3 : Byte} {rest left : List RxItem} {e : Err} {k : Nat} (hmin : 4 ≤ be16 b2 b3)
    (h : parse ([hi Config.framePrefix, lo Config.framePrefix, b2, b3].map .byte ++ rest) = some (.error e, k, left))
    (n : Nat) : (errorRecord e n).cls ≠ 2 := by
  rw [parse_good hmin] at h
  cases ht : takeBytes (be16 b2 b3) rest with
  | waiting => simp [ht] at h
  | ended r term rest' =>
    obtain ⟨rfl, -, -⟩ : bodyEnd r.length term = e ∧ _ := by simpa [ht] using h
    cases term <;> simp [errorRecord, bodyEnd]
  | got r rest' =>
    obtain ⟨hbody, -, -⟩ : parseBody r = .error e ∧ _ := by simpa [ht] using h
    obtain ⟨a, b, hr⟩ | ⟨c, st, a, hr⟩ := parseBody_cases r
    · obtain rfl : Err.integrity a b = e := by simpa [hr] using hbody
      simp [errorRecord]
    · simp [hr] at hbody

/-- Settles O29: reading the header stops at the end of the stream, with the bytes before it. -/
theorem shortHeaderIsAFramingError : Obligations.ShortHeaderIsAFramingError :=
  fun _ rest hshort => ⟨parse_headerEnds hshort .eos rest, parse_headerEnds hshort .err rest⟩

/-- Settles O30: `PREFIX` is looked for in a whole header only. -/
theorem wrongPrefixIsAFramingError : Obligations.WrongPrefixIsAFramingError :=
  ⟨fun _ _ b2 b3 rest hpre => parse_badPrefix hpre b2 b3 rest,
    fun b0 b1 rest _ => parse_headerEnds (h := [b0, b1]) (by simp) .eos rest⟩

/-- Settles O31: a framing error would be an error record of class 2, and behind a good header there is none. -/
theorem declaredLengthBelowFourIsAFramingError : Obligations.DeclaredLengthBelowFourIsAFramingError := by
  refine fun b2 b3 rest => ⟨fun hlen => parse_badLength hlen rest, fun hmin o k left h => ⟨?_, ?_, ?_⟩⟩
  · rintro n t rfl
    exact errorClass_of_parse_good hmin h 0 rfl
  · rintro a b rfl
    exact errorClass_of_parse_good hmin h 0 rfl
  · rintro n rfl
    exact errorClass_of_parse_good hmin h 0 rfl

/-- Settles O32: reading the body takes the declared number of bytes, or stops at the end of the stream. -/
theorem bodyIsReadWholeOrIsATransportError : Obligations.BodyIsReadWholeOrIsATransportError := by
  intro b2 b3 r rest hmin
  rw [← List.map_append]
  exact ⟨fun hlen => ⟨parseBody r, parse_wholeBody hlen.symm (hlen ▸ hmin) rest⟩,
    fun hshort => ⟨parse_bodyEnds hmin hshort .eos rest, parse_bodyEnds hmin hshort .err rest⟩⟩

/-- Parsing a whole frame of fields and a checksum byte is the check of that body (42_frame_parser.md R146, R147). -/
theorem parse_fields {b2 b3 : Byte} {answer : List Byte} (hlen : be16 b2 b3 = 4 + answer.length) (c1 c0 st ck : Byte)
    (rest : List RxItem) :
    parse (([hi Config.framePrefix, lo Config.framePrefix, b2, b3, c1, c0, st] ++ answer ++ [ck]).map .byte ++ rest)
      = some (parseBody ([c1, c0, st] ++ answer ++ [ck]), 8 + answer.length, rest) := by
  have hbody : ([c1, c0, st] ++ answer ++ [ck]).length = 4 + answer.length := by simp; omega
  have hcount : 8 + answer.length = 4 + ([c1, c0, st] ++ answer ++ [ck]).length := by omega
  rw [hcount]
  exact parse_wholeBody (hlen.trans hbody.symm) (by omega) rest

/-- Settles O33: the frame is parsed to the check of its body, and the check splits the body by position. -/
theorem wholeBodyIsCheckedAndSplitIntoFields : Obligations.WholeBodyIsCheckedAndSplitIntoFields := by
  refine fun b2 b3 c1 c0 st ck answer rest hlen => ⟨fun hck => ?_, fun hck => ?_⟩
  · rw [parse_fields hlen, parseBody_fields, if_neg (not_not_intro hck)]
    rfl
  · rw [parse_fields hlen, parseBody_fields, if_pos hck]

/-- Settles O34: on each shape of the stream the bytes that the outcome counts stand in front of it. -/
theorem parserConsumesExactlyWhatItReads : Obligations.ParserConsumesExactlyWhatItReads := by
  intro items rest o k h
  cases streamShape items with
  | headerWaits b hshort => cases (parse_headerWaits hshort).symm.trans h
  | headerEnds b term left hshort =>
    rw [parse_headerEnds hshort] at h
    cases h
    exact ⟨b, rfl, rfl, rfl, hshort⟩
  | badPrefix b0 b1 b2 b3 left hpre =>
    rw [parse_badPrefix hpre] at h
    cases h
    exact ⟨[b0, b1, b2, b3], rfl, rfl, rfl⟩
  | badLength b2 b3 left hlen =>
    rw [parse_badLength hlen] at h
    cases h
    exact ⟨[hi Config.framePrefix, lo Config.framePrefix, b2, b3], rfl, rfl, rfl⟩
  | bodyWaits b2 b3 r hmin hshort => cases (parse_bodyWaits hmin hshort).symm.trans h
  | bodyEnds b2 b3 r term left hmin hshort =>
    rw [parse_bodyEnds hmin hshort] at h
    cases h
    refine ⟨[hi Config.framePrefix, lo Config.framePrefix, b2, b3] ++ r, by simp; omega, ?_⟩
    cases term <;> exact ⟨rfl, rfl⟩
  | wholeBody b2 b3 r left hmin hlen =>
    rw [parse_wholeBody hlen hmin] at h
    cases h
    refine ⟨[hi Config.framePrefix, lo Config.framePrefix, b2, b3] ++ r, by simp; omega, ?_⟩
    have hcount : 4 + r.length = 4 + be16 b2 b3 := by rw [hlen]
    obtain ⟨a, b, hr⟩ | ⟨c, st, a, hr⟩ := parseBody_cases r
    · rw [hr]
      exact ⟨rfl, hcount⟩
    · rw [hr]
      exact ⟨rfl, hcount⟩

end Sys2Proof.Machine
end

section
/-! PROOF. `DEC`: its items always end in a terminator, so the parse has an outcome, which is the result; the framing
errors among them are those of the header (42_frame_parser.md R160, R161). -/

namespace Sys2Proof.Machine

/-- The result of `DEC` is the outcome of the parse with the count of bytes consumed (42_frame_parser.md R160). -/
theorem decResult_of_parse {data : List Byte} {term : Term} {o : ParseOut} {k : Nat} {rest : List RxItem}
    (h : parse (decItems data term) = some (o, k, rest)) :
    decResult data term = match o with
      | .ok c st answer => .decoded c st answer k
      | .error e => .error (errorRecord e k) := by
  cases o <;> simp [decResult, h]

/-- `DEC` on a faultless idle block is accepted and finishes with its result (42_frame_parser.md R160). -/
theorem execDec_of_idle (data : List Byte) (term : Term) {s : State} (hf : s.fault = false) (hp : s.phase = .idle) :
    execDec data term s = .next { s.accepted 0x4 with res := decResult data term, resValid := true } := by
  rw [execDec, accept_good hf hp, finish_of_idle (s := s.accepted 0x4) hp]

/-- The items of `DEC` with their terminator written out (42_frame_parser.md R160). -/
theorem decItems_eq (data : List Byte) (term : Term) :
    decItems data term = data.map .byte ++ [match term with | .eos => RxItem.eos | .err => RxItem.err] := by
  cases term <;> rfl

/-- Settles O17: the parse of terminated items has an outcome, and the acceptance finishes with it. -/
theorem decGivesTheParseOfItsBytes : Obligations.DecGivesTheParseOfItsBytes := by
  intro data term s hf hp
  obtain ⟨o, k, rest, h⟩ := parse_terminated data term
  refine ⟨o, k, rest, (decItems_eq data term).symm ▸ h, Config.freeArg s.draws, s.draws + 1, ?_⟩
  refine (execDec_of_idle data term hf hp).trans ?_
  rw [decResult_of_parse h]
  cases o <;> rfl

/-- With fewer than 4 bytes `DEC` fails with a framing error (42_frame_parser.md R161). -/
theorem decResult_of_short {data : List Byte} (hshort : data.length < 4) (term : Term) :
    decResult data term = .error (errorRecord (.shortHeader data.length term) data.length) :=
  decResult_of_parse (parse_headerEnds hshort term [])

/-- Without `PREFIX` in front `DEC` fails with a framing error (42_frame_parser.md R161). -/
theorem decResult_of_badPrefix {b0 b1 : Byte} (hpre : b0 ≠ hi Config.framePrefix ∨ b1 ≠ lo Config.framePrefix)
    (b2 b3 : Byte) (body : List Byte) (term : Term) :
    decResult (b0 :: b1 :: b2 :: b3 :: body) term = .error (errorRecord (.badPrefix b0 b1) 4) :=
  decResult_of_parse (data := b0 :: b1 :: b2 :: b3 :: body) (parse_badPrefix hpre b2 b3 (decItems body term))

/-- With a declared length below 4 `DEC` fails with a framing error (42_frame_parser.md R161). -/
theorem decResult_of_badLength {b2 b3 : Byte} (hlen : be16 b2 b3 < 4) (body : List Byte) (term : Term) :
    decResult (hi Config.framePrefix :: lo Config.framePrefix :: b2 :: b3 :: body) term
      = .error (errorRecord (.badLength (be16 b2 b3)) 4) :=
  decResult_of_parse (data := hi Config.framePrefix :: lo Config.framePrefix :: b2 :: b3 :: body)
    (parse_badLength hlen (decItems body term))

/-- Behind a good header `DEC` has no framing error (42_frame_parser.md R161). -/
theorem errorClass_of_decResult_good {b2 b3 : Byte} {body : List Byte} {term : Term} {e : ErrorRec}
    (hmin : 4 ≤ be16 b2 b3)
    (h : decResult (hi Config.framePrefix :: lo Config.framePrefix :: b2 :: b3 :: body) term = .error e) :
    e.cls ≠ 2 := by
  obtain ⟨o, k, rest, hparse⟩ :=
    parse_terminated (hi Config.framePrefix :: lo Config.framePrefix :: b2 :: b3 :: body) term
  rw [decResult_of_parse hparse] at h
  cases o with
  | ok c st answer => cases h
  | error e' =>
    cases h
    exact errorClass_of_parse_good (rest := decItems body term) hmin hparse k

/-- The result of `DEC` is a framing error in exactly three cases (42_frame_parser.md R161). -/
theorem decResult_framing_iff (data : List Byte) (term : Term) :
    (∃ e : ErrorRec, decResult data term = .error e ∧ e.cls = 2) ↔
      data.length < 4 ∨ byteAt data 0 ≠ hi Config.framePrefix ∨ byteAt data 1 ≠ lo Config.framePrefix
        ∨ be16 (byteAt data 2) (byteAt data 3) < 4 := by
  match data with
  | [] | [_] | [_, _] | [_, _, _] =>
    exact iff_of_true ⟨_, decResult_of_short (by simp) term, rfl⟩ (.inl (by simp))
  | b0 :: b1 :: b2 :: b3 :: body =>
    by_cases hpre : b0 ≠ hi Config.framePrefix ∨ b1 ≠ lo Config.framePrefix
    · exact iff_of_true ⟨_, decResult_of_badPrefix hpre b2 b3 body term, rfl⟩ (.inr (or_assoc.1 (.inl hpre)))
    · obtain ⟨rfl, rfl⟩ : b0 = hi Config.framePrefix ∧ b1 = lo Config.framePrefix := by simpa using hpre
      by_cases hlen : be16 b2 b3 < 4
      · exact iff_of_true ⟨_, decResult_of_badLength hlen body term, rfl⟩ (.inr (.inr (.inr hlen)))
      · refine iff_of_false ?_ (by simp; omega)
        rintro ⟨e, he, hcls⟩
        exact errorClass_of_decResult_good (by omega) he hcls

/-- Settles O36: the acceptance finishes with the result of `DEC`, whose framing errors are those of the header. -/
theorem decFramingErrorsAreExactlyThreeCases : Obligations.DecFramingErrorsAreExactlyThreeCases :=
  fun data term _ hf hp => ⟨_, execDec_of_idle data term hf hp, hf, rfl, decResult_framing_iff data term⟩

end Sys2Proof.Machine
end

section
/-! PROOF. The receive steps, item by item: a header byte, the checks behind the fourth, a body byte, the check behind
the last, and the end of the stream in either phase (42_frame_parser.md R150 to R153). -/

namespace Sys2Proof.Machine

/-- The checks of a whole header, with the two framing errors completed (42_frame_parser.md R151). -/
theorem headerCheck_eq (s : State) :
    headerCheck s = .next
      (if s.hbuf.b0 ≠ hi Config.framePrefix ∨ s.hbuf.b1 ≠ lo Config.framePrefix then
        s.finish (.error (errorRecord (.badPrefix s.hbuf.b0 s.hbuf.b1) 4))
      else if be16 s.hbuf.b2 s.hbuf.b3 < 4 then
        s.finish (.error (errorRecord (.badLength (be16 s.hbuf.b2 s.hbuf.b3)) 4))
      else
        { s with rlen := be16 s.hbuf.b2 s.hbuf.b3, bcnt := 0, xacc := 0x00, rbuf := [], phase := .rxBody }) := by
  rw [apply_ite Host.Outcome.next, apply_ite Host.Outcome.next]
  rfl

section Header

variable {s : State} {items : List RxItem} (hf : s.fault = false) (hp : s.phase = .rxHdr)
include hf hp

/-- A header byte before the fourth is stored (42_frame_parser.md R150). -/
theorem blockStep_headerByte {b : Byte} (hc : s.hcnt < 3) (hr : s.rx = .byte b :: items) :
    blockStep s = .next { s with rx := items, hbuf := setHeaderByte s.hbuf s.hcnt b, hcnt := s.hcnt + 1 } := by
  have h4 : s.hcnt < 4 := by omega
  have hne : s.hcnt + 1 ≠ 4 := by omega
  simp [blockStep_rxHdr hf hp, rxHdrStep, headerByte, h4, hne, hr]

/-- The fourth header byte is stored and the header checked (42_frame_parser.md R150, R151). -/
theorem blockStep_fourthHeaderByte {b : Byte} (hc : s.hcnt = 3) (hr : s.rx = .byte b :: items) :
    blockStep s = headerCheck { s with rx := items, hbuf := { s.hbuf with b3 := b }, hcnt := 4 } := by
  simp [blockStep_rxHdr hf hp, rxHdrStep, headerByte, setHeaderByte, hc, hr]

/-- An end of the stream inside the header is passed to `Complete` (42_frame_parser.md R150). -/
theorem blockStep_headerEnds {term : Term} (hc : s.hcnt < 4) (hr : s.rx = termItem term :: items) :
    blockStep s = complete (.error (.shortHeader s.hcnt term)) s.hcnt { s with rx := items } := by
  rw [blockStep_rxHdr hf hp, rxHdrStep, if_pos hc, hr]
  cases term <;> rfl

end Header

section Body

variable {s : State} {items : List RxItem} (hf : s.fault = false) (hp : s.phase = .rxBody)
include hf hp

/-- A body byte before the last is stored and folded into `xacc` (42_frame_parser.md R152; 40_checksum.md R104). -/
theorem blockStep_bodyByte {b : Byte} (hr : s.rx = .byte b :: items) (hc : s.bcnt + 1 < s.rlen) :
    blockStep s = .next
      { s with rx := items, rbuf := s.rbuf ++ [b], bcnt := s.bcnt + 1, xacc := s.xacc ^^^ b } := by
  have hlt : s.bcnt < s.rlen := by omega
  have hfold : s.bcnt < s.rlen - 1 := by omega
  simp [blockStep_rxBody hf hp, rxBodyStep, bodyByte, hlt, hfold, hc.ne, hr]

/-- The last body byte is stored and compared with `xacc`, and the outcome is passed to `Complete` (42_frame_parser.md
R152, R153). -/
theorem blockStep_lastBodyByte {b : Byte} (hr : s.rx = .byte b :: items) (hc : s.bcnt + 1 = s.rlen) :
    blockStep s = complete
      (if s.xacc ≠ b then .error (.integrity s.xacc b)
        else .ok (joinHalf (byteAt (s.rbuf ++ [b]) 0) (byteAt (s.rbuf ++ [b]) 1)) (byteAt (s.rbuf ++ [b]) 2)
          (slice (s.rbuf ++ [b]) 3 (s.rlen - 1)))
      (4 + s.rlen) { s with rx := items, rbuf := s.rbuf ++ [b], bcnt := s.bcnt + 1 } := by
  have hlt : s.bcnt < s.rlen := by omega
  have hlast : ¬ s.bcnt < s.rlen - 1 := by omega
  simp only [blockStep_rxBody hf hp, rxBodyStep, bodyByte, hlt, hlast, hc, hr, if_true, if_false, bodyCheck]
  split_ifs <;> rfl

/-- An end of the stream inside the body is passed to `Complete` (42_frame_parser.md R152). -/
theorem blockStep_bodyEnds {term : Term} (hc : s.bcnt < s.rlen) (hr : s.rx = termItem term :: items) :
    blockStep s = complete (.error (bodyEnd s.bcnt term)) (4 + s.bcnt) { s with rx := items } := by
  rw [blockStep_rxBody hf hp, rxBodyStep, if_pos hc, hr]
  cases term <;> rfl

end Body

/-- Settles O39: the fourth byte's clause is the check of the header with that byte in place. -/
theorem headerStepFollowsTheItem : Obligations.HeaderStepFollowsTheItem := by
  refine fun s items hf hp => ⟨fun b hc hr => blockStep_headerByte hf hp hc hr, fun b hc hr => ?_,
    fun hc hr => blockStep_headerEnds (term := .eos) hf hp hc hr,
    fun hc hr => blockStep_headerEnds (term := .err) hf hp hc hr⟩
  rw [blockStep_fourthHeaderByte hf hp hc hr, headerCheck_eq]
  rfl

/-- Settles O40: the last byte's two clauses are the two outcomes of the comparison. -/
theorem bodyStepFollowsTheItem : Obligations.BodyStepFollowsTheItem := by
  refine fun s items hf hp => ⟨fun b hr hc => blockStep_bodyByte hf hp hr hc, fun b hr hc hne => ?_,
    fun b hr hc heq r hres => ?_, fun hc hr => blockStep_bodyEnds (term := .eos) hf hp hc hr,
    fun hc hr => blockStep_bodyEnds (term := .err) hf hp hc hr⟩
  · rw [blockStep_lastBodyByte hf hp hr hc, if_pos hne]
    rfl
  · rw [blockStep_lastBodyByte hf hp hr hc, if_neg (not_not_intro heq)]
    simp only [complete, hres]
    rfl

end Sys2Proof.Machine
end

section
/-! PROOF. Runs of the sequencer from the entry to RX_HDR with the host doing nothing: on each shape of the stream it
passes to `Complete` what `Parse` returns, or waits where `Parse` has no outcome (42_frame_parser.md R154, R155). -/

namespace Sys2Proof.Machine

/-- With the host doing nothing, a run that reaches a state goes on with the block's step there, whatever its outcome.
-/
theorem run_blockStep {s t : State} {n : Nat} (h : Host.Core.run core n s = .next t) (ht : t.todo = []) :
    Host.Core.run core (n + 1) s = blockStep t := by
  have hstep : core.step t = blockStep t := step_of_todo_nil ht
  refine (run_add h 1).trans ((Host.Core.run.eq_2 core t 0).trans ?_)
  rw [hstep]
  cases blockStep t with
  | next u => exact run_zero u
  | fault r => rfl
  | refused r => rfl

/-- The state in RX_HDR with the header bytes `h` received and `rest` still in the stream (42_frame_parser.md R150). -/
def State.receivedHeader (s : State) (h : List Byte) (rest : List RxItem) : State :=
  { s with rx := rest, hcnt := h.length, hbuf := h.zipIdx.foldl (fun k p => setHeaderByte k p.2 p.1) s.hbuf }

/-- The state in RX_BODY behind a good header that declares `be16 b2 b3` bytes, with the body bytes `r` received and
`rest` still in the stream (42_frame_parser.md R151, R152; 40_checksum.md R105). -/
def State.receivedBody (s : State) (b2 b3 : Byte) (r : List Byte) (rest : List RxItem) : State :=
  { s with
    rx := rest, hbuf := ⟨hi Config.framePrefix, lo Config.framePrefix, b2, b3⟩, hcnt := 4
    rlen := be16 b2 b3, bcnt := r.length, xacc := xorAll r, rbuf := r, phase := .rxBody }

/-- After `n` steps the sequencer passes the outcome `o` and the count `k` to `Complete`, with `rest` left in the
stream, nothing sent, and the outcome's command in the received body (42_frame_parser.md R154). -/
def State.CompletesWith (s : State) (n : Nat) (o : ParseOut) (k : Nat) (rest : List RxItem) : Prop :=
  ∃ u, Host.Core.run core n s = complete o k u ∧ u.rx = rest ∧ u.op = s.op ∧ u.fault = s.fault ∧ u.sent = s.sent
    ∧ u.txAns = s.txAns ∧ ∀ c st a, o = .ok c st a → joinHalf (byteAt u.rbuf 0) (byteAt u.rbuf 1) = c

/-- The check of a whole body, by its covered bytes and its last byte (42_frame_parser.md R146, R147). -/
theorem parseBody_concat (covered : List Byte) (ck : Byte) :
    parseBody (covered ++ [ck])
      = if xorAll covered ≠ ck then .error (.integrity (xorAll covered) ck)
        else .ok (joinHalf (byteAt (covered ++ [ck]) 0) (byteAt (covered ++ [ck]) 1)) (byteAt (covered ++ [ck]) 2)
          (slice (covered ++ [ck]) 3 covered.length) := by
  have hlast : (covered ++ [ck]).length - 1 = covered.length := by simp
  simp only [parseBody, hlast, slice_front, byteAt_concat]

/-- The command of a parsed body is its first two bytes (42_frame_parser.md R147). -/
theorem command_of_parseBody {r a : List Byte} {c : Half} {st : Byte} (h : parseBody r = .ok c st a) :
    joinHalf (byteAt r 0) (byteAt r 1) = c := by
  simp only [parseBody] at h
  split at h <;> cases h
  rfl

/-- The last body byte completes with the check of the whole body, as `xacc` holds the checksum of the bytes before it
(42_frame_parser.md R153; 40_checksum.md R105). -/
theorem blockStep_receivedBody_last {s : State} (hf : s.fault = false) {b2 b3 ck : Byte} {covered : List Byte}
    (hlen : covered.length + 1 = be16 b2 b3) (rest : List RxItem) :
    blockStep (s.receivedBody b2 b3 covered (.byte ck :: rest))
      = complete (parseBody (covered ++ [ck])) (4 + (covered.length + 1))
        { s.receivedBody b2 b3 covered rest with rbuf := covered ++ [ck], bcnt := covered.length + 1 } := by
  rw [blockStep_lastBodyByte (s := s.receivedBody b2 b3 covered (.byte ck :: rest)) hf rfl rfl hlen, parseBody_concat]
  simp only [State.receivedBody, ← hlen, Nat.add_sub_cancel]

section Entry

variable {s : State} (hf : s.fault = false) (hp : s.phase = .rxHdr) (hc : s.hcnt = 0) (ht : s.todo = [])
include hf hp hc ht

/-- Header bytes before the fourth are received (42_frame_parser.md R150). -/
theorem run_intoHeader {h : List Byte} {rest : List RxItem} (hshort : h.length < 4)
    (hr : s.rx = h.map .byte ++ rest) : Host.Core.run core h.length s = .next (s.receivedHeader h rest) := by
  have hbytes := run_header h s rest hf hp ht (by omega) hr
  simp only [hc, Nat.zero_add] at hbytes
  exact hbytes

/-- Four bytes from the entry on are the header, which is then checked (42_frame_parser.md R150, R151). -/
theorem run_wholeHeader {b0 b1 b2 b3 : Byte} {rest : List RxItem} (hr : s.rx = [b0, b1, b2, b3].map .byte ++ rest) :
    Host.Core.run core 4 s = headerCheck { s with rx := rest, hbuf := ⟨b0, b1, b2, b3⟩, hcnt := 4 } :=
  have hthree : Host.Core.run core 3 s = .next (s.receivedHeader [b0, b1, b2] (.byte b3 :: rest)) :=
    run_intoHeader hf hp hc ht (h := [b0, b1, b2]) (by simp) hr
  (run_blockStep hthree ht).trans
    (blockStep_fourthHeaderByte (s := s.receivedHeader [b0, b1, b2] (.byte b3 :: rest)) hf hp rfl rfl)

/-- A good header and body bytes before the last bring the sequencer into the body (42_frame_parser.md R151, R152). -/
theorem run_intoBody {b2 b3 : Byte} {r : List Byte} {rest : List RxItem} (hmin : 4 ≤ be16 b2 b3)
    (hshort : r.length < be16 b2 b3)
    (hr : s.rx = ([hi Config.framePrefix, lo Config.framePrefix, b2, b3] ++ r).map .byte ++ rest) :
    Host.Core.run core (4 + r.length) s = .next (s.receivedBody b2 b3 r rest) := by
  have hheader : Host.Core.run core 4 s = .next (s.receivedBody b2 b3 [] (r.map .byte ++ rest)) := by
    rw [run_wholeHeader hf hp hc ht hr, headerCheck_eq, if_neg (by simp), if_neg (Nat.not_lt.2 hmin)]
    rfl
  have hbody := run_body r (s.receivedBody b2 b3 [] (r.map .byte ++ rest)) rest hf rfl ht rfl rfl
    (by simpa [State.receivedBody] using hshort) rfl
  refine (run_add hheader r.length).trans (hbody.trans ?_)
  simp [State.receivedBody]

/-- An end of the stream inside the header completes with SHORT_HEADER (42_frame_parser.md R150). -/
theorem completesWith_headerEnds {h : List Byte} {term : Term} {rest : List RxItem} (hshort : h.length < 4)
    (hr : s.rx = h.map .byte ++ termItem term :: rest) :
    s.CompletesWith (h.length + 1) (.error (.shortHeader h.length term)) h.length rest :=
  ⟨s.receivedHeader h rest,
    (run_blockStep (run_intoHeader hf hp hc ht hshort hr) ht).trans
      (blockStep_headerEnds (s := s.receivedHeader h (termItem term :: rest)) hf hp hshort rfl),
    rfl, rfl, rfl, rfl, rfl, nofun⟩

/-- A header without `PREFIX` in front completes with BAD_PREFIX (42_frame_parser.md R151). -/
theorem completesWith_badPrefix {b0 b1 b2 b3 : Byte} {rest : List RxItem}
    (hpre : b0 ≠ hi Config.framePrefix ∨ b1 ≠ lo Config.framePrefix)
    (hr : s.rx = [b0, b1, b2, b3].map .byte ++ rest) :
    s.CompletesWith 4 (.error (.badPrefix b0 b1)) 4 rest := by
  refine ⟨{ s with rx := rest, hbuf := ⟨b0, b1, b2, b3⟩, hcnt := 4 }, ?_, rfl, rfl, rfl, rfl, rfl, nofun⟩
  rw [run_wholeHeader hf hp hc ht hr, headerCheck_eq, if_pos hpre, complete_error]

/-- A declared length below 4 completes with BAD_LENGTH (42_frame_parser.md R151). -/
theorem completesWith_badLength {b2 b3 : Byte} {rest : List RxItem} (hlen : be16 b2 b3 < 4)
    (hr : s.rx = [hi Config.framePrefix, lo Config.framePrefix, b2, b3].map .byte ++ rest) :
    s.CompletesWith 4 (.error (.badLength (be16 b2 b3))) 4 rest := by
  refine ⟨{ s with rx := rest, hbuf := ⟨hi Config.framePrefix, lo Config.framePrefix, b2, b3⟩, hcnt := 4 }, ?_,
    rfl, rfl, rfl, rfl, rfl, nofun⟩
  rw [run_wholeHeader hf hp hc ht hr, headerCheck_eq, if_neg (by simp), if_pos hlen, complete_error]

/-- An end of the stream inside the body completes with READ_EOS or READ_ERR (42_frame_parser.md R152). -/
theorem completesWith_bodyEnds {b2 b3 : Byte} {r : List Byte} {term : Term} {rest : List RxItem}
    (hmin : 4 ≤ be16 b2 b3) (hshort : r.length < be16 b2 b3)
    (hr : s.rx = ([hi Config.framePrefix, lo Config.framePrefix, b2, b3] ++ r).map .byte ++ termItem term :: rest) :
    s.CompletesWith (4 + r.length + 1) (.error (bodyEnd r.length term)) (4 + r.length) rest :=
  ⟨s.receivedBody b2 b3 r rest,
    (run_blockStep (run_intoBody hf hp hc ht hmin hshort hr) ht).trans
      (blockStep_bodyEnds (s := s.receivedBody b2 b3 r (termItem term :: rest)) hf rfl hshort rfl),
    rfl, rfl, rfl, rfl, rfl, nofun⟩

/-- A whole body completes with its check, the last byte behind the covered ones (42_frame_parser.md R153). -/
theorem completesWith_wholeBody {b2 b3 : Byte} {r : List Byte} {rest : List RxItem} (hmin : 4 ≤ r.length)
    (hlen : be16 b2 b3 = r.length)
    (hr : s.rx = ([hi Config.framePrefix, lo Config.framePrefix, b2, b3] ++ r).map .byte ++ rest) :
    s.CompletesWith (4 + r.length) (parseBody r) (4 + r.length) rest := by
  obtain rfl | ⟨covered, ck, rfl⟩ := r.eq_nil_or_concat'
  · simp at hmin
  have hconcat : (covered ++ [ck]).length = covered.length + 1 := by simp
  have hrun : Host.Core.run core (4 + covered.length) s = .next (s.receivedBody b2 b3 covered (.byte ck :: rest)) :=
    run_intoBody hf hp hc ht (by omega) (by omega) (by simpa using hr)
  rw [hconcat]
  exact ⟨_, (run_blockStep hrun ht).trans (blockStep_receivedBody_last hf (by omega) rest),
    rfl, rfl, rfl, rfl, rfl, fun c st a => command_of_parseBody⟩

/-- The sequencer passes to `Complete` what `Parse` returns, one step per item (42_frame_parser.md R154). -/
theorem completesWith_parse {o : ParseOut} {k : Nat} {rest : List RxItem} (h : parse s.rx = some (o, k, rest)) :
    s.CompletesWith (s.rx.length - rest.length) o k rest := by
  generalize hr : s.rx = items at h ⊢
  cases streamShape items with
  | headerWaits b hshort => cases (parse_headerWaits hshort).symm.trans h
  | headerEnds b term left hshort =>
    rw [parse_headerEnds hshort] at h
    cases h
    have hsteps : (b.map RxItem.byte ++ termItem term :: rest).length - rest.length = b.length + 1 := by simp; omega
    exact hsteps ▸ completesWith_headerEnds hf hp hc ht hshort hr
  | badPrefix b0 b1 b2 b3 left hpre =>
    rw [parse_badPrefix hpre] at h
    cases h
    rw [List.length_append, Nat.add_sub_cancel]
    exact completesWith_badPrefix hf hp hc ht hpre hr
  | badLength b2 b3 left hlen =>
    rw [parse_badLength hlen] at h
    cases h
    rw [List.length_append, Nat.add_sub_cancel]
    exact completesWith_badLength hf hp hc ht hlen hr
  | bodyWaits b2 b3 r hmin hshort => cases (parse_bodyWaits hmin hshort).symm.trans h
  | bodyEnds b2 b3 r term left hmin hshort =>
    rw [parse_bodyEnds hmin hshort] at h
    cases h
    have hsteps : (([hi Config.framePrefix, lo Config.framePrefix, b2, b3] ++ r).map RxItem.byte
        ++ termItem term :: rest).length - rest.length = 4 + r.length + 1 := by simp; omega
    exact hsteps ▸ completesWith_bodyEnds hf hp hc ht hmin hshort hr
  | wholeBody b2 b3 r left hmin hlen =>
    rw [parse_wholeBody hlen hmin] at h
    cases h
    have hsteps : (([hi Config.framePrefix, lo Config.framePrefix, b2, b3] ++ r).map RxItem.byte ++ rest).length
        - rest.length = 4 + r.length := by simp; omega
    exact hsteps ▸ completesWith_wholeBody hf hp hc ht hmin hlen hr

/-- Where `Parse` has no outcome, reading every item brings the sequencer to a receive phase in which the empty stream
keeps it (42_frame_parser.md R149, R155). -/
theorem run_waits (h : parse s.rx = none) :
    ∃ t, Host.Core.run core s.rx.length s = .next t ∧ step t = .next t ∧ (t.phase = .rxHdr ∨ t.phase = .rxBody)
      ∧ t.rx = [] ∧ t.resValid = s.resValid ∧ t.fault = s.fault := by
  generalize hr : s.rx = items at h ⊢
  cases streamShape items with
  | headerWaits b hshort =>
    obtain ⟨-, -, -, hwait, -⟩ := waitingChangesNothing (s.receivedHeader b [])
    have hstill := (step_of_todo_nil (s := s.receivedHeader b []) ht).trans (hwait hp hshort rfl)
    rw [List.length_map]
    exact ⟨_, run_intoHeader hf hp hc ht hshort (by simpa using hr), hstill, .inl hp, rfl, rfl, rfl⟩
  | headerEnds b term left hshort => cases (parse_headerEnds hshort term left).symm.trans h
  | badPrefix b0 b1 b2 b3 left hpre => cases (parse_badPrefix hpre b2 b3 left).symm.trans h
  | badLength b2 b3 left hlen => cases (parse_badLength hlen left).symm.trans h
  | bodyWaits b2 b3 r hmin hshort =>
    obtain ⟨-, -, -, -, hwait⟩ := waitingChangesNothing (s.receivedBody b2 b3 r [])
    have hstill := (step_of_todo_nil (s := s.receivedBody b2 b3 r []) ht).trans (hwait rfl hshort rfl)
    have hsteps : (([hi Config.framePrefix, lo Config.framePrefix, b2, b3] ++ r).map RxItem.byte).length
        = 4 + r.length := by simp; omega
    rw [hsteps]
    exact ⟨_, run_intoBody hf hp hc ht hmin hshort (by simpa using hr), hstill, .inr rfl, rfl, rfl, rfl⟩
  | bodyEnds b2 b3 r term left hmin hshort => cases (parse_bodyEnds hmin hshort term left).symm.trans h
  | wholeBody b2 b3 r left hmin hlen => cases (parse_wholeBody hlen hmin left).symm.trans h

end Entry

/-- Settles O44: the sequencer passes the parse to `Complete`, which finishes for an exchange operation. -/
theorem sequencerComputesParse : Obligations.SequencerComputesParse := by
  intro s o k rest hf hp hc ht hop h
  obtain ⟨u, hrun, hrx, huop, hfault, hsent, hans, hcmd⟩ := completesWith_parse hf hp hc ht h
  have hcode : 5 ≤ u.op.toNat ∧ u.op.toNat ≤ 10 := by simpa [exchangeCode, huop] using hop
  obtain ⟨r, hfin, -, hres⟩ | ⟨-, hno⟩ := complete_cases o k u
  · refine ⟨u.finish r, hrun.trans hfin, rfl, rfl, hrx, hsent, hans, hfault.trans hf, ?_, hcmd⟩
    rw [← huop]
    exact hres
  · exact absurd hcode hno

/-- Settles O45: the state that has read every item waits there for any further number of steps. -/
theorem sequencerWaitsWhileTheStreamOffersNothing : Obligations.SequencerWaitsWhileTheStreamOffersNothing := by
  intro s n hf hp hc ht hv h
  obtain ⟨t, hrun, hstill, hphase, hrx, hvalid, hfault⟩ := run_waits hf hp hc ht h
  exact ⟨t, (run_add hrun n).trans (run_still hstill n), hphase, hrx, hvalid.trans hv, hfault.trans hf⟩

end Sys2Proof.Machine
end

section
/-! PROOF. The typed commands on a faultless idle block: the frames they send, byte by byte, and their acceptance
(43_command_status.md R181 to R206; 60_exceptions.md R236). -/

namespace Sys2Proof.Machine

/-- The request frame of a command without data (41_frame_encoder.md R120). -/
theorem encodeReq_nil (c : Half) : encodeReq c [] = [0xAA, 0xDD, 0x00, 0x03, hi c, lo c, hi c ^^^ lo c] := by
  have hlen : hi (BitVec.ofNat 16 3) = 0x00 ∧ lo (BitVec.ofNat 16 3) = 0x03 := by decide
  simp [encodeReq, frameOf_eq, hlen]

/-- The request frame of a command with one data byte (41_frame_encoder.md R120). -/
theorem encodeReq_singleton (c : Half) (b : Byte) :
    encodeReq c [b] = [0xAA, 0xDD, 0x00, 0x04, hi c, lo c, b, hi c ^^^ lo c ^^^ b] := by
  have hlen : hi (BitVec.ofNat 16 4) = 0x00 ∧ lo (BitVec.ofNat 16 4) = 0x04 := by decide
  simp [encodeReq, frameOf_eq, hlen, BitVec.xor_assoc]

/-- The request frame of the beep command (43_command_status.md R193). -/
theorem encodeReq_cmdBeep (units : Byte) :
    encodeReq Config.cmdBeep [units] = [0xAA, 0xDD, 0x00, 0x04, 0x01, 0x03, units, 0x02 ^^^ units] :=
  encodeReq_singleton Config.cmdBeep units

/-- The request frame of the read command (43_command_status.md R206). -/
theorem encodeReq_cmdRead : encodeReq Config.cmdRead [] = [0xAA, 0xDD, 0x00, 0x03, 0x01, 0x0C, 0x0D] :=
  encodeReq_nil Config.cmdRead

/-- Settles O19: the acceptance starts the exchange of the frame without data. -/
theorem infoIsAccepted : Obligations.InfoIsAccepted := by
  refine fun s hf hp => ⟨Config.freeArg s.draws, s.draws + 1, ?_⟩
  rw [← encodeReq_nil, exec, execInfo]
  exact accept_good hf hp

/-- Settles O20: the acceptance keeps the unit count and starts the exchange of the beep frame. -/
theorem beepIsAccepted : Obligations.BeepIsAccepted := by
  refine fun units s hf hp => ⟨s.draws + 1, ?_⟩
  rw [← encodeReq_cmdBeep, exec, execBeep]
  exact accept_good hf hp

/-- Settles O21: the acceptance keeps the duration's unit count and starts the exchange of the beep frame. -/
theorem beepNsIsAccepted : Obligations.BeepNsIsAccepted := by
  refine fun ns s hf hp => ⟨s.draws + 1, ?_⟩
  rw [← encodeReq_cmdBeep, exec, execBeepNs]
  exact accept_good hf hp

/-- Settles O22: a mode up to 0x02 has no operand fault and starts the exchange of its frame; a greater one has. -/
theorem ledIsAcceptedUpToGreen : Obligations.LedIsAcceptedUpToGreen := by
  refine fun mode s hf hp => ⟨fun h => ⟨s.draws + 1, ?_⟩, fun h => ?_⟩
  · rw [← encodeReq_singleton, exec, execLed, badMode_eq_none.2 h]
    exact accept_good hf hp
  · rw [exec, execLed, badMode_of_lt h]
    exact accept_bad hf hp

/-- Settles O23: the acceptance starts the exchange of the read frame. -/
theorem readTagIsAccepted : Obligations.ReadTagIsAccepted := by
  refine fun s hf hp => ⟨Config.freeArg s.draws, s.draws + 1, ?_⟩
  rw [← encodeReq_cmdRead, exec, execReadTag]
  exact accept_good hf hp

end Sys2Proof.Machine
end

section
/-! PROOF. The transmit step by the transmit side's answer, and the table that interprets a status (43_command_status.md
R183, R184, R187). -/

namespace Sys2Proof.Machine

/-- Settles O37: the TX step on an acknowledgement. -/
theorem acknowledgedByteAdvancesTheTransmitter : Obligations.AcknowledgedByteAdvancesTheTransmitter := by
  intro s b ans hf hp hb ha
  rw [blockStep_tx hf hp, txStep, hb, ha]
  rfl

/-- Settles O38: the TX step on a rejection completes with the send error. -/
theorem rejectedByteEndsTheExchange : Obligations.RejectedByteEndsTheExchange := by
  intro s ans hf hp hidx ha
  rw [blockStep_tx hf hp, txStep, List.getElem?_eq_getElem hidx, ha]
  rfl

/-- A status other than ST_OK is an error of the operations that know no other (43_command_status.md R187). -/
theorem interpret_of_status_ne_ok {code : BitVec 4} {st : Byte}
    (hcode : code ∈ ([0x6, 0x7, 0x8, 0x9] : List (BitVec 4))) (hst : st ≠ 0x00) (a : List Byte) (k : Nat) :
    interpret code st a k = some (statusError st k) := by
  simp only [List.mem_cons, List.not_mem_nil, or_false] at hcode
  obtain rfl | rfl | rfl | rfl := hcode <;> exact congrArg some (if_neg hst)

/-- The row of READ_TAG, the one with a second status that is no error (43_command_status.md R187, R207). -/
theorem interpret_readTag (st : Byte) (a : List Byte) (k : Nat) :
    interpret 0xA st a k = some (if st = 0x00 then .tag a else if st = 0x01 then .noTag else statusError st k) := rfl

/-- Settles O42: the rows with a fixed status are read off the table; the others are its errors. -/
theorem statusIsInterpretedByTheTable : Obligations.StatusIsInterpretedByTheTable := by
  refine fun st a k => ⟨rfl, rfl, rfl, rfl, rfl, rfl, rfl,
    fun h code hcode => interpret_of_status_ne_ok hcode h a k, fun h0 h1 => ?_⟩
  rw [interpret_readTag, if_neg h0, if_neg h1]
  rfl

end Sys2Proof.Machine
end

section
/-! PROOF. The beep unit conversion: the rounded count, then the bumped and clamped one (43_command_status.md R196 to
R201). -/

namespace Sys2Proof.Machine

/-- The rounded count with its factors multiplied out (43_command_status.md R197). -/
theorem roundedUnits_eq (n : Nat) : roundedUnits n = (510 * n + 1000000000) / 2000000000 := rfl

theorem roundedUnits_mono {m n : Nat} (h : m ≤ n) : roundedUnits m ≤ roundedUnits n := by
  rw [roundedUnits_eq, roundedUnits_eq]
  exact Nat.div_le_div_right (by omega)

/-- The rounded count is 0 up to half a unit (43_command_status.md R197). -/
theorem roundedUnits_eq_zero_iff (n : Nat) : roundedUnits n = 0 ↔ n ≤ 1960784 := by
  rw [roundedUnits_eq]
  omega

/-- Settles O48: the conversion's value, read back from its byte. -/
theorem beepUnitsAreRoundedBumpedAndClamped : Obligations.BeepUnitsAreRoundedBumpedAndClamped :=
  fun ns => bumpedClamped_toNat ns.toNat (roundedUnits ns.toNat)

/-- The bump and the clamp of a duration's rounded count are a lower and an upper bound (43_command_status.md R198). -/
theorem beepUnits_toNat_of_pos {ns : BitVec 64} (h : 0 < ns.toNat) :
    (beepUnits ns).toNat = min 255 (max 1 (roundedUnits ns.toNat)) := by
  rw [beepUnitsAreRoundedBumpedAndClamped, ← roundedUnits_eq]
  dsimp only
  split_ifs <;> omega

/-- Only no duration gives no units (43_command_status.md R198, R201). -/
theorem beepUnits_eq_zero_iff (ns : BitVec 64) : beepUnits ns = 0 ↔ ns = 0 := by
  refine ⟨fun h => ?_, fun h => h ▸ rfl⟩
  by_contra hne
  have hpos : 0 < ns.toNat := Nat.pos_of_ne_zero fun h0 => hne (BitVec.eq_of_toNat_eq h0)
  have hunits := beepUnits_toNat_of_pos hpos
  have hzero : (beepUnits ns).toNat = 0 := by rw [h]; rfl
  omega

/-- From 1 ns to the last duration below one unit there is one unit (43_command_status.md R201). -/
theorem beepUnits_eq_one {ns : BitVec 64} (hpos : 1 ≤ ns.toNat) (h : ns.toNat ≤ 3921568) : beepUnits ns = 1 := by
  refine BitVec.eq_of_toNat_eq ((beepUnits_toNat_of_pos hpos).trans ?_)
  have hround : roundedUnits ns.toNat ≤ 1 := roundedUnits_mono h
  rw [max_eq_left hround]
  rfl

/-- A second and more is clamped (43_command_status.md R198). -/
theorem beepUnits_eq_max {ns : BitVec 64} (h : 1000000000 ≤ ns.toNat) : beepUnits ns = 255 := by
  refine BitVec.eq_of_toNat_eq ((beepUnits_toNat_of_pos (by omega)).trans ?_)
  have hround : 255 ≤ roundedUnits ns.toNat := roundedUnits_mono h
  rw [min_eq_left (hround.trans (le_max_right 1 _))]
  rfl

/-- Between the bump and a second the rounded count stands as it is (43_command_status.md R197, R198). -/
theorem beepUnits_toNat_of_unclamped {ns : BitVec 64} (hlo : 1960785 ≤ ns.toNat) (hhi : ns.toNat ≤ 1000000000) :
    (beepUnits ns).toNat = roundedUnits ns.toNat := by
  have hmin : 1 ≤ roundedUnits ns.toNat := roundedUnits_mono hlo
  have hmax : roundedUnits ns.toNat ≤ 255 := roundedUnits_mono hhi
  rw [beepUnits_toNat_of_pos (by omega), max_eq_right hmin, min_eq_right hmax]

/-- A longer duration never gives fewer units (43_command_status.md R197, R198). -/
theorem beepUnits_mono {ns ns' : BitVec 64} (h : ns.toNat ≤ ns'.toNat) :
    (beepUnits ns).toNat ≤ (beepUnits ns').toNat := by
  obtain hzero | hpos := Nat.eq_zero_or_pos ns.toNat
  · obtain rfl : ns = 0 := BitVec.eq_of_toNat_eq hzero
    exact Nat.zero_le _
  · rw [beepUnits_toNat_of_pos hpos, beepUnits_toNat_of_pos (hpos.trans_le h)]
    exact min_le_min_left 255 (max_le_max_left 1 (roundedUnits_mono h))

/-- Settles O49: the bounds of the bump and the clamp, and the division's remainder between them. -/
theorem beepUnitsMeetTheTestProperty : Obligations.BeepUnitsMeetTheTestProperty := by
  refine ⟨fun ns => ⟨beepUnits_eq_zero_iff ns, beepUnits_eq_one, roundedUnits_eq_zero_iff _, beepUnits_eq_max,
    fun hlo hhi => ?_⟩, fun ns ns' => beepUnits_mono, rfl, rfl⟩
  rw [beepUnits_toNat_of_unclamped hlo hhi, roundedUnits_eq]
  omega

end Sys2Proof.Machine
end

section
/-! PROOF. The whole round trip of an exchange: the acceptance step, the transmission of its frame, and the sequencer's
run over the response; then READ_TAG on a well-formed response (43_command_status.md R180 to R187, R206, R207). -/

namespace Sys2Proof.Machine

theorem encodeReq_length (c : Half) (d : List Byte) : (encodeReq c d).length = 7 + d.length := by
  simp [encodeReq_eq]
  omega

theorem encodeRsp_length (c : Half) (st : Byte) (a : List Byte) : (encodeRsp c st a).length = 8 + a.length := by
  simp [encodeRsp_eq]
  omega

/-- An exchange operation without operand fault starts the exchange of its command and data (43_command_status.md
R181). -/
theorem exec_of_exchangeOf {i : Instr} {code : BitVec 4} {c : Half} {d : List Byte} {s : State}
    (hx : exchangeOf i = some (code, c, d)) (hb : operandFault i = none) (hf : s.fault = false) (hp : s.phase = .idle) :
    ∃ a, exec i s = .next ({ s.accepted code with arg := a }.startExchange c d) := by
  obtain ⟨_, _, hnone, -⟩ | ⟨code', c', d', hx', f, h⟩ | ⟨hnone, -⟩ := exec_eq_accept i
  · cases hx.symm.trans hnone
  · cases hx.symm.trans hx'
    rw [h, hb, accept_good hf hp]
    exact ⟨_, rfl⟩
  · cases hx.symm.trans hnone

/-- A presented exchange request is accepted and its whole frame acknowledged: the block has sent the frame and turns to
the response (43_command_status.md R181, R183). -/
theorem run_presentedExchange {s : State} {r : Request} {code : BitVec 4} {c : Half} {d : List Byte}
    {ans : List TxAnswer} (hx : exchangeOf (decode r) = some (code, c, d)) (hb : operandFault (decode r) = none)
    (hf : s.fault = false) (hp : s.phase = .idle) (ht : s.todo = [.present r])
    (ha : s.txAns = List.replicate (7 + d.length) .ack ++ ans) :
    ∃ u, Host.Core.run core (1 + (7 + d.length)) s = .next u
      ∧ u.phase = .rxHdr ∧ u.hcnt = 0 ∧ u.fault = false ∧ u.todo = [] ∧ u.op = code
      ∧ u.sent = s.sent ++ encodeReq c d ∧ u.txAns = ans ∧ u.rx = s.rx := by
  obtain ⟨a, hexec⟩ := exec_of_exchangeOf hx hb hf hp
  obtain ⟨hstep, -⟩ := stepRunsThePresentedRequest s r [] ht
  have hframe : 0 + (6 + d.length) + 1 = (encodeReq c d).length := by
    rw [encodeReq_length]
    omega
  have hans : s.txAns = List.replicate (6 + d.length + 1) .ack ++ ans := by
    rw [ha]
    congr 2
    omega
  have htodo : s.todo.tail = [] := by rw [ht]; rfl
  obtain ⟨u, hrun, rfl⟩ := run_transmit (6 + d.length) ({ s.accepted code with arg := a }.startExchange c d) ans
    hf rfl htodo hframe hans
  have hcount : 7 + d.length = 6 + d.length + 1 := by omega
  rw [run_add (run_one (hstep.trans hexec)), hcount]
  exact ⟨_, hrun, rfl, rfl, hf, htodo, rfl, rfl, rfl, rfl⟩

/-- Settles O46: the frame is sent, and from there the sequencer computes the parse. -/
theorem exchangeIsOneRoundTrip : Obligations.ExchangeIsOneRoundTrip := by
  intro s r code c d ans o k rest hx hb hf hp ht ha hparse
  obtain ⟨-, hcode⟩ := exchangeOf_fits hx hb
  obtain ⟨u, hsend, huphase, hucnt, hufault, hutodo, rfl, husent, huans, hurx⟩ :=
    run_presentedExchange hx hb hf hp ht ha
  obtain ⟨t, hreceive, hphase, hvalid, hrx, hsent, hans, hfault, hres, -⟩ :=
    sequencerComputesParse u o k rest hufault huphase hucnt hutodo hcode (hurx ▸ hparse)
  refine ⟨t, ?_, hphase, hvalid, hfault, hsent.trans husent, hans.trans huans, hrx, hres⟩
  rw [run_add hsend, ← hurx]
  exact hreceive

/-- Settles O47: the round trip of READ_TAG over a response frame, which the parser reads back, and its row of the
table. -/
theorem readTagReturnsTagOrNoTag : Obligations.ReadTagReturnsTagOrNoTag := by
  intro s c st a rest hlen hf hp ht ha hrx
  have hparse : parse s.rx = some (.ok c st a, 8 + a.length, rest) := by
    rw [hrx]
    exact parserInvertsResponseEncoder c st a rest hlen
  have hcount : 1 + (7 + 0) + (s.rx.length - rest.length) = 16 + a.length := by
    rw [hrx, List.length_append, Nat.add_sub_cancel, List.length_map, encodeRsp_length]
    omega
  have hans : s.txAns = List.replicate 7 .ack ++ [] := by rw [ha, List.append_nil]
  obtain ⟨t, hrun, hphase, hvalid, -, hsent, -, hrest, hres⟩ :=
    exchangeIsOneRoundTrip s (encode .readTag) 0xA Config.cmdRead [] [] _ _ rest rfl rfl hf hp ht hans hparse
  refine ⟨t, hcount ▸ hrun, hphase, hvalid, hrest, ?_, ?_⟩
  · rw [hsent, encodeReq_cmdRead]
  · exact Option.some.inj (hres.trans (interpret_readTag st a (8 + a.length)))

end Sys2Proof.Machine
end

section
/-! PROOF. Exceptions: the checks of an acceptance in their order, the faulted block that takes no step until reset, and
the error records (60_exceptions.md R231 to R243). -/

namespace Sys2Proof.Machine

/-- Every instruction is an acceptance under the code of its record, with its operand fault; what it does once accepted
leaves that code in `op` (60_exceptions.md R236). -/
theorem exec_eq_accept_code (i : Instr) :
    ∃ act : State → State, (∀ s, exec i s = accept (Laws.RecordCode.code i) (operandFault i) act s)
      ∧ ∀ t, (act t).op = t.op := by
  cases i
  case reservedZero | reservedHigh => exact ⟨id, fun _ => rfl, fun _ => rfl⟩
  case csum | encReq | encRsp | dec => exact ⟨fun t => t.finish _, fun _ => rfl, fun _ => rfl⟩
  case beep v | led v => exact ⟨fun t => .startExchange { t with arg := v } _ _, fun _ => rfl, fun _ => rfl⟩
  case beepNs ns =>
    exact ⟨fun t => .startExchange { t with arg := beepUnits ns } _ _, fun _ => rfl, fun _ => rfl⟩
  all_goals exact ⟨fun t => t.startExchange _ _, fun _ => rfl, fun _ => rfl⟩

/-- The first check: a faulted block accepts nothing (60_exceptions.md R236, R238). -/
theorem exec_of_fault (i : Instr) {s : State} (hf : s.fault = true) : exec i s = .next s.nextLine := by
  obtain ⟨act, hexec, -⟩ := exec_eq_accept_code i
  rw [hexec, accept_faulted hf]

/-- The second check: a busy block raises HOST_OVERLAP (60_exceptions.md R236, R240). -/
theorem exec_of_busy (i : Instr) {s : State} (hf : s.fault = false) (hp : s.phase ≠ .idle) :
    exec i s = .next { s.nextLine with fault := true, faultCode := .hostOverlap } := by
  obtain ⟨act, hexec, -⟩ := exec_eq_accept_code i
  rw [hexec, accept_busy hf hp]

/-- The third check: a faultless idle block raises the operand fault (60_exceptions.md R236). -/
theorem exec_of_operandFault {i : Instr} {c : FaultCode} {s : State} (hf : s.fault = false) (hp : s.phase = .idle)
    (hb : operandFault i = some c) : exec i s = .next { s.nextLine with fault := true, faultCode := c } := by
  obtain ⟨act, hexec, -⟩ := exec_eq_accept_code i
  rw [hexec, hb, accept_bad hf hp]

/-- An accepted instruction leaves the code of its record in `op` (60_exceptions.md R236). -/
theorem op_of_exec {i : Instr} {s t : State} (hf : s.fault = false) (hp : s.phase = .idle)
    (hb : operandFault i = none) (e : exec i s = .next t) : t.op = Laws.RecordCode.code i := by
  obtain ⟨act, hexec, hop⟩ := exec_eq_accept_code i
  rw [hexec, hb, accept_good hf hp] at e
  cases e
  exact hop _

/-- Settles O10, by the first check. -/
theorem faultedBlockAcceptsNothing : Obligations.FaultedBlockAcceptsNothing :=
  fun i _ hf => exec_of_fault i hf

/-- Settles O11, by the second check. -/
theorem requestWhileBusyRaisesHostOverlap : Obligations.RequestWhileBusyRaisesHostOverlap :=
  fun i _ hf hp => exec_of_busy i hf hp

/-- Settles O12: the operand fault of a reserved code is ILLEGAL_OP. -/
theorem reservedCodesRaiseIllegalOp : Obligations.ReservedCodesRaiseIllegalOp :=
  fun _ _ hf hp => ⟨exec_of_operandFault hf hp rfl, exec_of_operandFault hf hp rfl⟩

/-- The instruction read from a record keeps the record's code (30_encoding.md R80). -/
theorem code_decodeReq (q : Req) : Laws.RecordCode.code (decodeReq q) = q.op := by
  unfold decodeReq
  split
  case h_12 => rfl
  all_goals exact BitVec.eq_of_toNat_eq (Eq.symm ‹_›)

/-- The operand checks of a record, in the order of 60_exceptions.md R236. -/
theorem operandFault_decodeReq (q : Req) :
    operandFault (decodeReq q) =
      if q.op = 0x0 ∨ 0xB ≤ q.op.toNat then some .illegalOp
      else if (q.op = 0x2 ∨ q.op = 0x5) ∧ 65532 < q.data.length then some .dataTooLong
      else if q.op = 0x3 ∧ 65531 < q.data.length then some .dataTooLong
      else if q.op = 0x9 ∧ 0x02 < q.arg.toNat then some .badLedMode
      else none := by
  unfold decodeReq
  split
  case h_12 =>
    simp only [imp_false] at *
    rw [if_pos (.inr (by omega))]
    rfl
  all_goals simp [BitVec.toNat_eq, *, operandFault, tooLong, badMode, Config.ledGreen, BitVec.lt_def]

/-- Settles O9: the first two checks, then the operand checks of the record; an accepted request has completed or
started its exchange. -/
theorem acceptanceChecksInOrder : Obligations.AcceptanceChecksInOrder := by
  intro q s
  have hbad := operandFault_decodeReq q
  by_cases hf : s.fault = true
  · rw [if_pos hf]
    exact exec_of_fault _ hf
  rw [if_neg hf]
  replace hf : s.fault = false := by simpa using hf
  by_cases hp : s.phase = .idle
  case neg =>
    rw [if_pos hp]
    exact exec_of_busy _ hf hp
  rw [if_neg (not_not.2 hp)]
  split_ifs at hbad ⊢
  case neg =>
    obtain ⟨t, e, hf', hstep, hexchange⟩ := acceptedOperationsCompleteOrStartTransmitting _ s hf hp hbad
    refine ⟨t, e, (op_of_exec hf hp hbad e).trans (code_decodeReq q), hf', ?_⟩
    by_cases hx : exchangeOf (decodeReq q) = none
    · exact .inr (hstep hx)
    · exact .inl (hexchange hx)
  all_goals exact exec_of_operandFault hf hp hbad

/-- Whatever the host does but reset, a step of a faulted block moves the host alone (60_exceptions.md R238). -/
theorem step_of_fault {s t : State} (hf : s.fault = true) (hreset : s.todo.head? ≠ some .reset)
    (e : step s = .next t) : ∃ lines reads, t = { s with todo := lines, reads := reads } := by
  obtain hs | ⟨-, hs⟩ | ⟨r, -, hs⟩ | ⟨hr, -⟩ | ⟨-, -, hs⟩ | ⟨lines, reads, hs⟩ | hs := step_cases s
  case inr.inr.inr.inl => exact absurd hr hreset
  all_goals rw [hs] at e
  · rw [blockStep_still (.inl hf)] at e
    cases e
    exact ⟨_, _, rfl⟩
  · rw [blockStep_still (s := s.nextLine) (.inl hf)] at e
    cases e
    exact ⟨_, s.reads, rfl⟩
  · rw [exec_of_fault _ hf] at e
    cases e
    exact ⟨_, s.reads, rfl⟩
  · rw [State.raise_of_fault (s := s.nextLine) hf] at e
    cases e
    exact ⟨_, s.reads, rfl⟩
  · cases e
    exact ⟨_, _, rfl⟩
  · cases e

/-- Settles O53: neither the registers nor the streams are the host's. -/
theorem faultedBlockTakesNoStep : Obligations.FaultedBlockTakesNoStep := by
  intro s t hf hreset e
  obtain ⟨lines, reads, rfl⟩ := step_of_fault hf hreset e
  exact ⟨rfl, rfl, rfl, rfl⟩

/-- Settles O43: each failure's row of the table, read off. -/
theorem errorRecordsHoldTheirFields : Obligations.ErrorRecordsHoldTheirFields :=
  fun _ _ _ _ => ⟨rfl, rfl, rfl, rfl, rfl, rfl, rfl, rfl⟩

end Sys2Proof.Machine
end

section
/-! PROOF. Reset: the state after it, the one step in which it acts, and the invariant it establishes
(70_reset_and_hazards.md R260 to R262). -/

namespace Sys2Proof.Machine

/-- The reset input leaves the state after reset as it is. -/
theorem State.resetBlock_reset : State.reset.resetBlock = State.reset := rfl

/-- Reset clears every field of STATUS in every state; RES_KIND is 0 because no result is valid, whatever `res` holds
(10_state.md R33, 70_reset_and_hazards.md R260). -/
@[simp] theorem statusWord_resetBlock (s : State) : statusWord s.resetBlock = 0x0000 := by
  simp [statusWord, shownKind, busy, faultNumber, phaseNumber]

/-- Settles O7: the values that the reset input sets, in the state that it leaves as it is. -/
theorem resetStateHoldsTheGivenValues : Obligations.ResetStateHoldsTheGivenValues := by
  rw [Obligations.ResetStateHoldsTheGivenValues, ← State.resetBlock_reset]
  exact ⟨rfl, rfl, rfl, rfl, rfl, rfl, rfl, rfl, statusWord_resetBlock _⟩

/-- The reset line resets the block, whatever its phase and its fault, and is then past
(70_reset_and_hazards.md R260). -/
theorem step_of_reset {s : State} {rest : List HostLine} (h : s.todo = .reset :: rest) :
    step s = .next (State.resetBlock { s with todo := rest }) := by
  simp [step, h, hostReset, State.nextLine]

/-- Settles O8, by the step of the reset line: what it sets does not depend on the state, and what it keeps is the
streams and the host's own (70_reset_and_hazards.md R261). -/
theorem resetActsAtAnyTimeAndLeavesTheStreams : Obligations.ResetActsAtAnyTimeAndLeavesTheStreams :=
  fun _ _ h => ⟨_, step_of_reset h, rfl, rfl, rfl, rfl, rfl, rfl, rfl, rfl, statusWord_resetBlock _,
    rfl, rfl, rfl, rfl, rfl, rfl⟩

/-- Settles O57: the invariant that reset establishes in every state, in the state after reset. -/
theorem invariantHoldsAtReset : Obligations.InvariantHoldsAtReset := by
  rw [Obligations.InvariantHoldsAtReset, ← State.resetBlock_reset]
  exact inv_resetBlock _

end Sys2Proof.Machine
end
